-- ==== Sys2Proof/Word.lean ====
section
/-! DEFINITION. The two word types of the hardware: a byte, and the program counter.

Every register, memory cell, opcode and operand is one byte (`00_scope.md` R5, R7). The program counter takes the 257
values 0 to 256, and 256 means "one past the last cell" (`10_state.md` R13). -/
namespace Sys2Proof

/-- An unsigned 8-bit value, 0 to 255 (R5, R7). -/
abbrev Byte := BitVec 8

/-- The values of the program counter, 0 to 256 inclusive (R13); a type of exactly these values, so nothing can push the
program counter past 256. -/
abbrev Pc := Fin 257

end Sys2Proof
end

