-- ==== Sys2Proof/Config.lean ====
section
/-! DEFINITION. What is fixed for the life of the machine and is no state: the mnemonics, the instruction formats, and
the type of the opcode map `OPC`, the one parameter of the hardware (`00_scope.md` R6, `30_encoding.md` R51, R55, R56).

The spec's default value of `OPC` stands in `Sys2Proof/Decode.lean` (`defaultOpcodeMap`). -/
namespace Sys2Proof

/-- The ten mnemonics of the CORE ISA (`00_scope.md` R2). -/
inductive Mnemonic where
  | nop | load | store | add | sub | jump | cmp | jeq | jne | halt
  deriving DecidableEq, Repr

/-- The four instruction formats (`30_encoding.md` R51). -/
inductive Format where
  /-- format N: the opcode byte alone -/
  | none
  /-- format A: an address byte follows -/
  | addr
  /-- format RA: a register byte, then an address byte -/
  | regAddr
  /-- format RR: two register bytes -/
  | regReg
  deriving DecidableEq, Repr

/-- An opcode map `OPC`: a byte for every mnemonic (`00_scope.md` R6). -/
abbrev OpcodeMap := Mnemonic → Byte

/-- What the spec asks of every opcode map (R55, R56): no two mnemonics share a byte, the four bytes the document fixes
are as it fixes them, and the byte 0x06 belongs to no instruction. -/
def OpcodeMap.Admissible (m : OpcodeMap) : Prop :=
  Function.Injective m ∧ m .load = 0x01 ∧ m .add = 0x03 ∧ m .jump = 0x05 ∧ m .halt = 0xFF ∧ ∀ k, m k ≠ 0x06

end Sys2Proof
end

