-- ==== Sys2Proof/Syntax.lean ====
section
/-! DEFINITION. The instructions, one constructor for each row of `spec/opcode_table.json`, with the operand bytes as
they stand in memory.

An operand carries no tag (`30_encoding.md` R61): a register operand is a whole byte, 0 to 255, and whether it names a
register is checked when the instruction executes (R54), not when it is decoded. -/
namespace Sys2Proof

/-- One instruction of the CORE ISA with its operand bytes, in the order they follow the opcode (R51). -/
inductive Instr where
  /-- NOP (`44_system.md` R130) -/
  | nop
  /-- LOAD reg, addr (`41_data_transfer.md` R100) -/
  | load (reg addr : Byte)
  /-- STORE reg, addr (`41_data_transfer.md` R101) -/
  | store (reg addr : Byte)
  /-- ADD reg1, reg2 (`42_alu.md` R111) -/
  | add (reg1 reg2 : Byte)
  /-- SUB reg1, reg2 (`42_alu.md` R112) -/
  | sub (reg1 reg2 : Byte)
  /-- JUMP addr (`43_control_transfer.md` R120) -/
  | jump (addr : Byte)
  /-- CMP reg1, reg2 (`42_alu.md` R113) -/
  | cmp (reg1 reg2 : Byte)
  /-- JEQ addr (`43_control_transfer.md` R121) -/
  | jeq (addr : Byte)
  /-- JNE addr (`43_control_transfer.md` R122) -/
  | jne (addr : Byte)
  /-- HALT (`44_system.md` R131) -/
  | halt
  deriving DecidableEq, Repr

end Sys2Proof
end

