-- ==== Sys2Proof/WellFormed.lean ====
section
/-! DEFINITION. Well-formed instructions: those of a correct program, whose register operands name registers
(`30_encoding.md` R74: `reg` is one of R0 to R3).

An ill-formed instruction is decoded and executed all the same; its execution is the halt BAD_REGISTER (R54). -/
namespace Sys2Proof

/-- The register operand bytes of an instruction, in order (R51). An address byte has no illegal value (R57). -/
def Instr.registerOperands : Instr → List Byte
  | .nop => []
  | .load reg _ => [reg]
  | .store reg _ => [reg]
  | .add reg1 reg2 => [reg1, reg2]
  | .sub reg1 reg2 => [reg1, reg2]
  | .jump _ => []
  | .cmp reg1 reg2 => [reg1, reg2]
  | .jeq _ => []
  | .jne _ => []
  | .halt => []

/-- Every register operand byte is 0, 1, 2 or 3 (R54, R74). -/
def Instr.wellFormed (i : Instr) : Bool :=
  i.registerOperands.all fun b => decide (b.toNat < 4)

end Sys2Proof
end

