-- ==== Sys2Proof/Decode.lean ====
section
/-! DEFINITION. The opcode map's default, the decoder and the encoder (`30_encoding.md` R50 to R61).

Everything but the default map takes the opcode map as an argument, so that a claim can be made for every admissible
map (`92_eei_decisions.md` D1). -/
namespace Sys2Proof

/-- The default opcode map (R55 for LOAD, ADD, JUMP and HALT; R56, decision D1, for the other six).
UNVERIFIED, unsafe: the six bytes of D1 are the spec's guess and not the repository's (log entry 1). -/
def defaultOpcodeMap : OpcodeMap
  | .nop => 0x00
  | .load => 0x01
  | .store => 0x02
  | .add => 0x03
  | .sub => 0x04
  | .jump => 0x05
  | .cmp => 0x07
  | .jeq => 0x08
  | .jne => 0x09
  | .halt => 0xFF

/-- All ten mnemonics (R2). -/
def Mnemonic.all : List Mnemonic :=
  [.nop, .load, .store, .add, .sub, .jump, .cmp, .jeq, .jne, .halt]

/-- The format of each instruction (R51). -/
def Mnemonic.format : Mnemonic → Format
  | .nop => .none
  | .load => .regAddr
  | .store => .regAddr
  | .add => .regReg
  | .sub => .regReg
  | .jump => .addr
  | .cmp => .regReg
  | .jeq => .addr
  | .jne => .addr
  | .halt => .none

/-- How many operand bytes follow the opcode (R50, R51). -/
def Format.operandCount : Format → Nat
  | .none => 0
  | .addr => 1
  | .regAddr => 2
  | .regReg => 2

/-- The mnemonic whose opcode is this byte, compared as a whole; none is `UNKNOWN(op)` (R58). -/
def decodeOpcode (m : OpcodeMap) (op : Byte) : Option Mnemonic :=
  Mnemonic.all.find? fun k => m k == op

/-- How many operand bytes the instruction that begins with this opcode byte fetches; an unknown opcode fetches none
(R52). -/
def operandCountOf (m : OpcodeMap) (op : Byte) : Nat :=
  match decodeOpcode m op with
  | none => 0
  | some k => k.format.operandCount

/-- Why a byte sequence is not the start of an instruction. -/
inductive DecodeError where
  /-- the opcode byte is in no place of the opcode map (R57); executing it is the halt UNKNOWN_OPCODE -/
  | unknownOpcode (op : Byte)
  /-- the sequence ends before the operands of this instruction do; the core never meets this, since it fetches as many
  operand bytes as the opcode asks for (R52) -/
  | truncated (k : Mnemonic)
  /-- the sequence is empty -/
  | noBytes
  deriving DecidableEq, Repr

/-- The instruction of a mnemonic with the operand bytes that follow its opcode, and the bytes after it (R51). -/
def takeOperands : Mnemonic → List Byte → Except DecodeError (Instr × List Byte)
  | .nop, rest => .ok (.nop, rest)
  | .load, reg :: addr :: rest => .ok (.load reg addr, rest)
  | .store, reg :: addr :: rest => .ok (.store reg addr, rest)
  | .add, reg1 :: reg2 :: rest => .ok (.add reg1 reg2, rest)
  | .sub, reg1 :: reg2 :: rest => .ok (.sub reg1 reg2, rest)
  | .jump, addr :: rest => .ok (.jump addr, rest)
  | .cmp, reg1 :: reg2 :: rest => .ok (.cmp reg1 reg2, rest)
  | .jeq, addr :: rest => .ok (.jeq addr, rest)
  | .jne, addr :: rest => .ok (.jne addr, rest)
  | .halt, rest => .ok (.halt, rest)
  | k, _ => .error (.truncated k)

/-- The instruction at the head of a byte sequence and the bytes after it, or the reason there is none (R50 to R58). -/
def decode (m : OpcodeMap) : List Byte → Except DecodeError (Instr × List Byte)
  | [] => .error .noBytes
  | op :: rest =>
    match decodeOpcode m op with
    | none => .error (.unknownOpcode op)
    | some k => takeOperands k rest

/-- The mnemonic of an instruction (R2). -/
def Instr.mnemonic : Instr → Mnemonic
  | .nop => .nop
  | .load _ _ => .load
  | .store _ _ => .store
  | .add _ _ => .add
  | .sub _ _ => .sub
  | .jump _ => .jump
  | .cmp _ _ => .cmp
  | .jeq _ => .jeq
  | .jne _ => .jne
  | .halt => .halt

/-- The operand bytes of an instruction in the order they stand in memory (R51). -/
def Instr.operandBytes : Instr → List Byte
  | .nop => []
  | .load reg addr => [reg, addr]
  | .store reg addr => [reg, addr]
  | .add reg1 reg2 => [reg1, reg2]
  | .sub reg1 reg2 => [reg1, reg2]
  | .jump addr => [addr]
  | .cmp reg1 reg2 => [reg1, reg2]
  | .jeq addr => [addr]
  | .jne addr => [addr]
  | .halt => []

/-- The bytes of an instruction, lowest address first: the opcode, then the operands (R50, R51). -/
def encode (m : OpcodeMap) (i : Instr) : List Byte :=
  m i.mnemonic :: i.operandBytes

/-- The three bytes of a table word, lowest address first, bit 0 of the word being the least significant bit of the
first byte; the bits from `nbits` up are zero. Three bytes hold the longest instruction (R50). -/
def wordBytes (nbits w : Nat) : List Byte :=
  [BitVec.ofNat 8 (w % 2 ^ nbits), BitVec.ofNat 8 (w % 2 ^ nbits / 256), BitVec.ofNat 8 (w % 2 ^ nbits / 65536)]

/-- What the decoder, under the default map, reads from a table word. -/
def decodeTableWord (nbits w : Nat) : Option Instr :=
  match decode defaultOpcodeMap (wordBytes nbits w) with
  | .ok (i, _) => some i
  | .error _ => none

end Sys2Proof
end

