-- ==== Sys2Proof/Machine/State.lean ====
section
/-! DEFINITION. The state of the machine as plain data, its reset value, the kinds of halt, and the reasons a step can
stop (`10_state.md`, `60_exceptions.md` R140 and R146). -/
namespace Sys2Proof.Machine

/-- The name of a general register (`10_state.md` R10). -/
inductive Reg where
  | r0 | r1 | r2 | r3
  deriving DecidableEq, Repr

/-- The four general registers R0 to R3, all alike, none hardwired (R10, R11). -/
structure RegFile where
  r0 : Byte
  r1 : Byte
  r2 : Byte
  r3 : Byte
  deriving DecidableEq, Repr

/-- Memory: the cells that do not hold zero, as pairs of an address and a byte, addresses strictly rising and below 256.
An unlisted cell reads zero, the value reset gives every cell (R19, R22). `Memory.wf` states the form. -/
abbrev Memory := List Host.Cell

/-- The whole state of the core (`10_state.md`, the tuple at its head, and R21, R24: there is nothing else). -/
structure State where
  /-- the general registers (R10) -/
  x : RegFile
  /-- the program counter, 0 to 256 (R12, R13) -/
  pc : Pc
  /-- the flag EQ (R15) -/
  flagEq : Bool
  /-- the flag NE, a cell of its own and not the negation of EQ (R15) -/
  flagNe : Bool
  /-- the Running flag; false is the state Halted (R17) -/
  running : Bool
  /-- the 256 memory cells (R19) -/
  mem : Memory
  deriving DecidableEq, Repr

/-- The state after reset and at power-on: registers zero, pc zero, both flags false, running, every cell zero
(`10_state.md` R22 and R23, `70_reset_and_hazards.md` R160 and R161). Every value is the spec's own. -/
def State.reset : State where
  x := { r0 := 0, r1 := 0, r2 := 0, r3 := 0 }
  pc := 0
  flagEq := false
  flagNe := false
  running := true
  mem := []

/-- The kinds of halt, the spec's own names (`60_exceptions.md` R140). They are reported and stored nowhere (R145). -/
inductive HaltKind where
  /-- a HALT instruction executed (R131) -/
  | cleanHalt
  /-- the opcode byte is outside the opcode map (R132, R141) -/
  | unknownOpcode
  /-- a fetch with pc = 256 (R80, R142) -/
  | fetchOob
  /-- a register operand byte of 4 or more (R54, R143) -/
  | badRegister
  /-- an address operand of 256 or more: named by the document, unreachable on this hardware (R144) -/
  | addrOob
  deriving DecidableEq, Repr

/-- What one cycle reports beside its end state; no architectural state (R146). -/
inductive CycleOutcome where
  /-- the cycle ended with running = true -/
  | continues
  /-- a HALT instruction ended the program -/
  | cleanHalt
  /-- an error halted the core -/
  | errorHalt (kind : HaltKind)
  deriving DecidableEq, Repr

/-- Why the machine stops with a fault. This hardware absorbs every error into a halt, which is a NEXT state with
running = false (R84, R140), so no step raises a fault. -/
inductive Fault where
  /-- An access to a cell that does not exist (the document's "addr ≥ 256", R43 and R144). Raised by nobody: an address
  operand is a byte and a fetch at 256 is a halt. Safe: it could only stop a run that the hardware cannot make. -/
  | addrOob
  deriving DecidableEq, Repr

/-- Why the model gives an instruction no meaning. -/
inductive Refusal where
  /-- The instruction has no meaning in the model yet. Raised by nobody: every arm of `exec` calls a meaning. Safe: a
  refusal proves nothing about the hardware. -/
  | notModelled (mnemonic : String)
  deriving DecidableEq, Repr

end Sys2Proof.Machine
end

