-- ==== Sys2Proof/Machine/Ops.lean ====
section
/-! DEFINITION. The named operations over memory, registers, the program counter and the Running flag. Every reading and
writing of state by an instruction goes through them (`00_scope.md` R8, R9; `20_memory.md`). -/
namespace Sys2Proof.Machine

/-! ### Memory -/

/-- What a cell that the list does not name reads as: zero, the reset content of every cell (`10_state.md` R19, R22). -/
def Memory.unlisted : Byte := 0

/-- The byte in cell `a` (`MemRead(a, 1)` of R9; no side effect, R34). -/
def Memory.read : Memory → Nat → Byte
  | [], _ => Memory.unlisted
  | (b, w) :: rest, a => if a = b then w else Memory.read rest a

/-- The memory with byte `v` in cell `a` and every other cell as it was (`MemWrite(a, 1, v)` of R9, R34). It keeps the
list sorted, and writing the unlisted value takes the entry out. -/
def Memory.write : Memory → Nat → Byte → Memory
  | [], a, v => if v = Memory.unlisted then [] else [(a, v)]
  | (b, w) :: rest, a, v =>
    if a < b then
      if v = Memory.unlisted then (b, w) :: rest else (a, v) :: (b, w) :: rest
    else if a = b then
      if v = Memory.unlisted then rest else (a, v) :: rest
    else (b, w) :: Memory.write rest a v

/-- The bytes written one after another from cell `a` upward; a byte that would stand at 256 or beyond has no cell and
is dropped (R5: 256 cells). -/
def Memory.writeBytes : Memory → Nat → List Byte → Memory
  | mem, _, [] => mem
  | mem, a, v :: vs => if a < 256 then Memory.writeBytes (Memory.write mem a v) (a + 1) vs else mem

/-- The canonical form from address `lo` on: addresses strictly rise from `lo`, stay below 256, and no entry holds the
unlisted value. -/
def Memory.wfFrom : Nat → Memory → Bool
  | _, [] => true
  | lo, (a, v) :: rest => decide (lo ≤ a) && decide (a < 256) && decide (v ≠ Memory.unlisted) && Memory.wfFrom (a + 1) rest

/-- The canonical form of memory, in which equal memories are equal lists. -/
def Memory.wf (mem : Memory) : Bool := Memory.wfFrom 0 mem

/-- The byte in memory cell `a` (R9). -/
def State.memRead (s : State) (a : Nat) : Byte := s.mem.read a

/-- Store byte `v` in memory cell `a` (R9). -/
def State.memWrite (s : State) (a : Nat) (v : Byte) : State := { s with mem := s.mem.write a v }

/-! ### General registers -/

/-- The value of a register (`x[i]` of R8). -/
def RegFile.read (f : RegFile) : Reg → Byte
  | .r0 => f.r0
  | .r1 => f.r1
  | .r2 => f.r2
  | .r3 => f.r3

/-- The registers with one of them written (`x[i] <- v` of R8). -/
def RegFile.write (f : RegFile) (r : Reg) (v : Byte) : RegFile :=
  match r with
  | .r0 => { f with r0 := v }
  | .r1 => { f with r1 := v }
  | .r2 => { f with r2 := v }
  | .r3 => { f with r3 := v }

/-- Read register `r` (R8). -/
def State.regRead (s : State) (r : Reg) : Byte := s.x.read r

/-- Write register `r` (R8). -/
def State.regWrite (s : State) (r : Reg) (v : Byte) : State := { s with x := s.x.write r v }

/-! ### Program counter -/

/-- Set the program counter (R9, `pc <- target`). -/
def State.setPc (s : State) (target : Pc) : State := { s with pc := target }

/-- The program counter one on; 255 goes to 256 and 256 stays, it never wraps (`10_state.md` R13). -/
def pcSucc (p : Pc) : Pc :=
  if h : p.val < 256 then ⟨p.val + 1, by omega⟩ else p

/-! ### Halting, this hardware's taking of an exception -/

/-- `raise Halt(kind)`: the one effect of every exceptional event and of HALT, `running <- false`; nothing is saved,
nothing else changes, and what was written before stays (`00_scope.md` R9, `60_exceptions.md` R140, R149). The kind is
not recorded (R145), so it is no argument; `cycleOutcome` reports it. There is no return from it but reset (R150). -/
def State.raiseHalt (s : State) : State := { s with running := false }

end Sys2Proof.Machine
end

