-- ==== Sys2Proof/Machine/Operands.lean ====
section
/-! DEFINITION. The two operand forms: a register index and an absolute address (`30_encoding.md` R53, R54;
`20_memory.md` R31). There are no others: no immediate, no index, no indirection. -/
namespace Sys2Proof.Machine

/-- `RegIndex(b)`: the register that operand byte `b` names, none when `b` is 4 to 255. The high six bits are not
ignored (R54, decision D2). -/
def regIndex (b : Byte) : Option Reg :=
  if b = 0 then some .r0
  else if b = 1 then some .r1
  else if b = 2 then some .r2
  else if b = 3 then some .r3
  else none

/-- The index of a register, the byte that names it (`10_state.md` R10; R54). -/
def Reg.index : Reg → Nat
  | .r0 => 0
  | .r1 => 1
  | .r2 => 2
  | .r3 => 3

/-- The cell that address operand byte `b` names: the byte as it is (R31, R53). -/
def address (b : Byte) : Nat := b.toNat

/-- The program counter that a jump's address operand byte names: the byte as it is, 0 to 255 (R31, R123). -/
def jumpTarget (b : Byte) : Pc := ⟨b.toNat, by have := b.isLt; omega⟩

/-- An instruction with one register operand: its effect when the byte names a register, else the halt BAD_REGISTER with
nothing else done (R54, R83, R143). -/
def onReg (b : Byte) (s : State) (effect : Reg → State) : Host.Outcome State Fault Refusal :=
  match regIndex b with
  | some r => .next (effect r)
  | none => .next s.raiseHalt

/-- An instruction with two register operands: its effect when both bytes name registers, else one halt BAD_REGISTER with
nothing else done (R54, R83, R143). -/
def onRegs (b c : Byte) (s : State) (effect : Reg → Reg → State) : Host.Outcome State Fault Refusal :=
  match regIndex b, regIndex c with
  | some r, some q => .next (effect r q)
  | _, _ => .next s.raiseHalt

end Sys2Proof.Machine
end

