-- ==== Sys2Proof/Machine/Flags.lean ====
section
/-! DEFINITION. The ALU: the wrapping sum and difference of two bytes, and the one flag computation, CMP's (`42_alu.md`
R110, R113, R114). No other flag exists and no other instruction writes one (`10_state.md` R15). -/
namespace Sys2Proof.Machine

/-- `(u + v) mod 256` on unsigned values (R110). -/
def aluAdd (u v : Byte) : Byte := BitVec.ofNat 8 ((u.toNat + v.toNat) % 256)

/-- `(u - v) mod 256` on unsigned values, the remainder 0 to 255 of the exact difference (R7, R110). -/
def aluSub (u v : Byte) : Byte := BitVec.ofInt 8 (((u.toNat : Int) - (v.toNat : Int)) % 256)

/-- `EQ <- (u == v); NE <- not EQ` (R113, R15). -/
def State.compare (s : State) (u v : Byte) : State :=
  { s with flagEq := decide (u = v), flagNe := !decide (u = v) }

end Sys2Proof.Machine
end

