-- ==== Sys2Proof/Machine/Alu.lean ====
section
/-! DEFINITION. ADD, SUB and CMP (`42_alu.md`). Each meaning takes the state after all the instruction's bytes have been
fetched (`40_cycle.md` R83); both registers are read before any write. -/
namespace Sys2Proof.Machine

/-- ADD reg1, reg2: `x[reg1] <- (x[reg1] + x[reg2]) mod 256` (R111). No flag is written. -/
def execAdd (reg1 reg2 : Byte) (s : State) : Host.Outcome State Fault Refusal :=
  onRegs reg1 reg2 s fun r q => s.regWrite r (aluAdd (s.regRead r) (s.regRead q))

/-- SUB reg1, reg2: `x[reg1] <- (x[reg1] - x[reg2]) mod 256` (R112). No flag is written. -/
def execSub (reg1 reg2 : Byte) (s : State) : Host.Outcome State Fault Refusal :=
  onRegs reg1 reg2 s fun r q => s.regWrite r (aluSub (s.regRead r) (s.regRead q))

/-- CMP reg1, reg2: `EQ <- (x[reg1] == x[reg2]); NE <- not EQ` (R113). No register is written. -/
def execCmp (reg1 reg2 : Byte) (s : State) : Host.Outcome State Fault Refusal :=
  onRegs reg1 reg2 s fun r q => s.compare (s.regRead r) (s.regRead q)

end Sys2Proof.Machine
end

