-- ==== Sys2Proof/Machine/ControlTransfer.lean ====
section
/-! DEFINITION. JUMP, JEQ and JNE (`43_control_transfer.md`). Each meaning takes the state after the operand byte has been
fetched (`40_cycle.md` R83), so a jump not taken leaves `pc` past the instruction. No flag is written. -/
namespace Sys2Proof.Machine

/-- JUMP addr: `pc <- addr` (R120). -/
def execJump (addr : Byte) (s : State) : Host.Outcome State Fault Refusal :=
  .next (s.setPc (jumpTarget addr))

/-- JEQ addr: `if EQ then pc <- addr` (R121). NE is not read. -/
def execJeq (addr : Byte) (s : State) : Host.Outcome State Fault Refusal :=
  .next (if s.flagEq then s.setPc (jumpTarget addr) else s)

/-- JNE addr: `if NE then pc <- addr` (R122). The stored NE is read, not the negation of EQ. -/
def execJne (addr : Byte) (s : State) : Host.Outcome State Fault Refusal :=
  .next (if s.flagNe then s.setPc (jumpTarget addr) else s)

end Sys2Proof.Machine
end

