-- ==== Sys2Proof/Machine/DataTransfer.lean ====
section
/-! DEFINITION. LOAD and STORE (`41_data_transfer.md`). Each meaning takes the state after all the instruction's bytes
have been fetched, so `pc` already points past the instruction (`40_cycle.md` R83). -/
namespace Sys2Proof.Machine

/-- LOAD reg, addr: `x[reg] <- mem[addr]` (R100). No flag is written. -/
def execLoad (reg addr : Byte) (s : State) : Host.Outcome State Fault Refusal :=
  onReg reg s fun r => s.regWrite r (s.memRead (address addr))

/-- STORE reg, addr: `mem[addr] <- x[reg]` (R101). No flag is written. -/
def execStore (reg addr : Byte) (s : State) : Host.Outcome State Fault Refusal :=
  onReg reg s fun r => s.memWrite (address addr) (s.regRead r)

end Sys2Proof.Machine
end

