-- ==== Sys2Proof/Machine/System.lean ====
section
/-! DEFINITION. NOP, HALT and the unknown opcode (`44_system.md`). Each meaning takes the state after the opcode byte has
been fetched (`40_cycle.md` R83). -/
namespace Sys2Proof.Machine

/-- NOP: no effect beyond the fetch that advanced `pc` (R130). -/
def execNop (s : State) : Host.Outcome State Fault Refusal := .next s

/-- HALT: `running <- false` (R131). -/
def execHalt (s : State) : Host.Outcome State Fault Refusal := .next s.raiseHalt

/-- What the core does with an opcode byte that is no instruction: the halt UNKNOWN_OPCODE, `running <- false`; no
operand is fetched (R132, R141). No arm of `exec` calls it, since it is no instruction; the cycle does. -/
def execUnknown (s : State) : Host.Outcome State Fault Refusal := .next s.raiseHalt

end Sys2Proof.Machine
end

