-- ==== Sys2Proof/Machine/Dispatch.lean ====
section
/-! DEFINITION. `Execute` of `40_cycle.md` R82: one arm for each instruction, one direct call of its meaning. The state is
the one after all the instruction's bytes have been fetched (R83). -/
namespace Sys2Proof.Machine

/-- Execute one instruction whose bytes have been fetched (R82). -/
def exec (i : Instr) (s : State) : Host.Outcome State Fault Refusal :=
  match i with
  | .nop => Sys2Proof.Machine.execNop s
  | .load reg addr => Sys2Proof.Machine.execLoad reg addr s
  | .store reg addr => Sys2Proof.Machine.execStore reg addr s
  | .add reg1 reg2 => Sys2Proof.Machine.execAdd reg1 reg2 s
  | .sub reg1 reg2 => Sys2Proof.Machine.execSub reg1 reg2 s
  | .jump addr => Sys2Proof.Machine.execJump addr s
  | .cmp reg1 reg2 => Sys2Proof.Machine.execCmp reg1 reg2 s
  | .jeq addr => Sys2Proof.Machine.execJeq addr s
  | .jne addr => Sys2Proof.Machine.execJne addr s
  | .halt => Sys2Proof.Machine.execHalt s

end Sys2Proof.Machine
end

