-- ==== Sys2Proof/Machine/Fetch.lean ====
section
/-! DEFINITION. Fetching an instruction's bytes, one by one (`40_cycle.md` R80, R81, R85, R86). -/
namespace Sys2Proof.Machine

/-- `Fetch()`: the byte `pc` points at and the state with `pc` one on. At the end of memory it halts instead: `running`
is cleared, `pc` is left, and the opcode of HALT is what comes back (R80, decision D3). It does not end the instruction
that called it (R85). -/
def fetch (m : OpcodeMap) (s : State) : Byte × State :=
  if s.pc.val < 256 then (s.memRead s.pc.val, s.setPc (pcSucc s.pc)) else (m .halt, s.raiseHalt)

/-- `n` fetches, one after another: the bytes in the order they were fetched and the state after the last. -/
def fetchBytes (m : OpcodeMap) : Nat → State → List Byte × State
  | 0, s => ([], s)
  | n + 1, s =>
    ((fetch m s).1 :: (fetchBytes m n (fetch m s).2).1, (fetchBytes m n (fetch m s).2).2)

/-- Fetch a whole instruction: its opcode byte, then as many operand bytes as that opcode asks for (R52, R81, R83). The
instruction the bytes decode to, or the decoder's error, and the state after the last fetch. -/
def fetchInstr (m : OpcodeMap) (s : State) : Except DecodeError Instr × State :=
  let opcode := fetch m s
  let operands := fetchBytes m (operandCountOf m opcode.1) opcode.2
  ((decode m (opcode.1 :: operands.1)).map Prod.fst, operands.2)

end Sys2Proof.Machine
end

