-- ==== Sys2Proof/Machine/Cycle.lean ====
section
/-! DEFINITION. One cycle of the core, and the outcome it reports (`40_cycle.md` R81, R82, R84; `60_exceptions.md` R146,
R148). -/
namespace Sys2Proof.Machine

/-- `Cycle()`: fetch an instruction and execute it; bytes that are no instruction halt the core (R81, R82, R84). The spec
defines it when `running` is true. -/
def cycle (m : OpcodeMap) (s : State) : Host.Outcome State Fault Refusal :=
  match fetchInstr m s with
  | (.ok i, s') => exec i s'
  | (.error _, s') => execUnknown s'

/-- The event an instruction raises when its operands are these: BAD_REGISTER when a register byte is 4 or more (R143),
CLEAN_HALT for HALT (R131), else none. -/
def instrEvent (i : Instr) : Option HaltKind :=
  if i.wellFormed then
    if i = .halt then some .cleanHalt else none
  else some .badRegister

/-- The outcome that an instruction's event, or none, gives its cycle (R146). -/
def eventOutcome : Option HaltKind → CycleOutcome
  | none => .continues
  | some .cleanHalt => .cleanHalt
  | some .unknownOpcode => .errorHalt .unknownOpcode
  | some .fetchOob => .errorHalt .fetchOob
  | some .badRegister => .errorHalt .badRegister
  | some .addrOob => .errorHalt .addrOob

/-- The outcome a cycle reports (R146), stored nowhere. The first event decides (R148): a fetch at 256, which shows as
`running` cleared once the instruction is fetched, then the unknown opcode, then the instruction's own event. -/
def cycleOutcome (m : OpcodeMap) (s : State) : CycleOutcome :=
  if (fetchInstr m s).2.running then
    match (fetchInstr m s).1 with
    | .error _ => .errorHalt .unknownOpcode
    | .ok i => eventOutcome (instrEvent i)
  else .errorHalt .fetchOob

/-- One step of a core that may be Halted: a cycle when Running, and no change when Halted. It is `run(1)` (`40_cycle.md`
R87, R90: "Halted is terminal"; `60_exceptions.md` R154: a host single-steps by calling `run(1)`). DEDUCED, safe (log
entry 2). -/
def stepWith (m : OpcodeMap) (s : State) : Host.Outcome State Fault Refusal :=
  if s.running then cycle m s else .next s

end Sys2Proof.Machine
end

