-- ==== Sys2Proof/Machine/Step.lean ====
section
/-! DEFINITION. The step of the machine under the default opcode map, and the placing of one instruction where the next
step fetches it. -/
namespace Sys2Proof.Machine

/-- One step: `run(1)` under the default opcode map (`40_cycle.md` R87; `30_encoding.md` R56; log entries 1 and 2). -/
def step (s : State) : Host.Outcome State Fault Refusal := stepWith defaultOpcodeMap s

/-- The state with a table word's three bytes stored from `pc` upward and the core Running, so that the next step fetches
and runs that instruction. It stands for the host's loading of a program (log entry 8). -/
def State.withFetchWord (s : State) (nbits w : Nat) : State :=
  { s with mem := s.mem.writeBytes s.pc.val (wordBytes nbits w), running := true }

end Sys2Proof.Machine
end

