-- ==== Sys2Proof/Machine/Assembler.lean ====
section
/-! DEFINITION. The two-pass assembler (`30_encoding.md` R62 to R74, `92_eei_decisions.md` D17). It is software outside the
hardware (`00_scope.md` R4): no step of the core calls it. Source text is a list of characters. -/
namespace Sys2Proof.Machine

/-- Source text, a line, a token or a name. -/
abbrev Text := List Char

/-- Why a source does not assemble: the errors of R73, the range failure of R71 among them, each with the name or token
at fault. -/
inductive AsmError where
  | duplicateLabel (name : Text)
  | unknownMnemonic (token : Text)
  | unresolvedOperand (token : Text)
  | operandRange (token : Text)
  deriving DecidableEq, Repr

/-! ### Cleaning and lines (R62 to R64) -/

/-- The lines of a text, parted at newline characters (R62). DESIGN CHOICE, safe: no other character parts lines (log
entry 10). -/
def splitLines : Text → List Text
  | [] => [[]]
  | c :: cs =>
    if c = '\n' then [] :: splitLines cs
    else
      match splitLines cs with
      | [] => [[c]]
      | line :: lines => (c :: line) :: lines

/-- A text without the white space at its two ends (R62). -/
def trim (t : Text) : Text :=
  (((t.dropWhile Char.isWhitespace).reverse).dropWhile Char.isWhitespace).reverse

/-- A line without its comment, trimmed (R62). -/
def cleanLine (line : Text) : Text := trim (line.takeWhile fun c => c ≠ '#')

/-- The first token of a text, as far as the first white space, and the tokens after it. -/
def tokensFrom : Text → Text × List Text
  | [] => ([], [])
  | c :: cs =>
    if c.isWhitespace then
      ([], if (tokensFrom cs).1 = [] then (tokensFrom cs).2 else (tokensFrom cs).1 :: (tokensFrom cs).2)
    else (c :: (tokensFrom cs).1, (tokensFrom cs).2)

/-- The tokens of a text, parted at white space alone; a comma parts nothing (R64). -/
def tokens (t : Text) : List Text :=
  if (tokensFrom t).1 = [] then (tokensFrom t).2 else (tokensFrom t).1 :: (tokensFrom t).2

/-- A cleaned line: a label declaration or an instruction line (R62). -/
inductive SourceLine where
  | label (name : Text)
  | instr (toks : List Text)
  deriving DecidableEq, Repr

/-- A line that holds a colon declares the trimmed text before its first colon, and what follows is dropped (R63, D17 b);
any other line is an instruction line (R64). -/
def parseLine (line : Text) : SourceLine :=
  if ':' ∈ line then .label (trim (line.takeWhile fun c => c ≠ ':')) else .instr (tokens line)

/-- The source's lines in order, cleaned, blank ones skipped (R62). -/
def sourceLines (source : Text) : List SourceLine :=
  (((splitLines source).map cleanLine).filter fun line => line ≠ []).map parseLine

/-! ### Pass 1: addresses (R65, R66) -/

/-- A label table: names and addresses. -/
abbrev LabelTable := List (Text × Nat)

/-- The address a table gives a name, if it has it. -/
def labelAddress (labels : LabelTable) (name : Text) : Option Nat :=
  (labels.find? fun entry => entry.1 = name).map Prod.snd

/-- Pass 1 from an address counter and a table: a label is bound to the counter and must be new; an instruction line
adds its token count to the counter and is not looked at (R63, R65). The table and the final counter. -/
def pass1 : List SourceLine → Nat → LabelTable → Except AsmError (LabelTable × Nat)
  | [], counter, labels => .ok (labels, counter)
  | .label name :: lines, counter, labels =>
    if (labelAddress labels name).isSome then .error (.duplicateLabel name)
    else pass1 lines counter ((name, counter) :: labels)
  | .instr toks :: lines, counter, labels => pass1 lines (counter + toks.length) labels

/-! ### Pass 2: bytes (R67 to R71) -/

/-- A mnemonic's spelling, upper case (R67, D17 a). -/
def mnemonicSpelling : Mnemonic → Text
  | .nop => ['N', 'O', 'P']
  | .load => ['L', 'O', 'A', 'D']
  | .store => ['S', 'T', 'O', 'R', 'E']
  | .add => ['A', 'D', 'D']
  | .sub => ['S', 'U', 'B']
  | .jump => ['J', 'U', 'M', 'P']
  | .cmp => ['C', 'M', 'P']
  | .jeq => ['J', 'E', 'Q']
  | .jne => ['J', 'N', 'E']
  | .halt => ['H', 'A', 'L', 'T']

/-- The mnemonic a token spells exactly, case and all (R67). -/
def mnemonicOf (token : Text) : Option Mnemonic :=
  Mnemonic.all.find? fun k => mnemonicSpelling k = token

/-- The byte of a register name, exact and in upper case (R69). -/
def registerByte (token : Text) : Option Byte :=
  if token = ['R', '0'] then some 0
  else if token = ['R', '1'] then some 1
  else if token = ['R', '2'] then some 2
  else if token = ['R', '3'] then some 3
  else none

/-- A token without one trailing comma (R64, R68). -/
def stripComma (token : Text) : Text :=
  if token.getLast? = some ',' then token.dropLast else token

/-- The value of a hexadecimal digit, of either case (R71, D17 d). -/
def hexDigitValue (c : Char) : Option Nat :=
  if '0' ≤ c ∧ c ≤ '9' then some (c.toNat - '0'.toNat)
  else if 'a' ≤ c ∧ c ≤ 'f' then some (c.toNat - 'a'.toNat + 10)
  else if 'A' ≤ c ∧ c ≤ 'F' then some (c.toNat - 'A'.toNat + 10)
  else none

/-- The value of a decimal digit. -/
def decDigitValue (c : Char) : Option Nat :=
  if '0' ≤ c ∧ c ≤ '9' then some (c.toNat - '0'.toNat) else none

/-- The number a run of digits writes in a base, most significant digit first, on top of what was read before. -/
def digitsValue (digit : Char → Option Nat) (base : Nat) : Nat → Text → Option Nat
  | acc, [] => some acc
  | acc, c :: cs =>
    match digit c with
    | some d => digitsValue digit base (acc * base + d) cs
    | none => none

/-- The byte of a value, which must be at most 255 (R71, D17 c; for a label's address DESIGN CHOICE, log entry 11). -/
def byteOfValue (token : Text) (v : Nat) : Except AsmError Byte :=
  if v ≤ 255 then .ok (BitVec.ofNat 8 v) else .error (.operandRange token)

/-- The byte of an operand token with its comma taken off, in the strict order of R68: register name, `0x` number,
decimal number, label. The empty token names nothing, the empty label included (R63, D17 e). A `0x` with no hexadecimal
number after it is unresolved (DESIGN CHOICE, log entry 12). -/
def resolveStripped (labels : LabelTable) (t : Text) : Except AsmError Byte :=
  match registerByte t with
  | some b => .ok b
  | none =>
    if t.take 2 = ['0', 'x'] then
      match t.drop 2, digitsValue hexDigitValue 16 0 (t.drop 2) with
      | _ :: _, some v => byteOfValue t v
      | _, _ => .error (.unresolvedOperand t)
    else
      match t, digitsValue decDigitValue 10 0 t with
      | [], _ => .error (.unresolvedOperand t)
      | _ :: _, some v => byteOfValue t v
      | _ :: _, none =>
        match labelAddress labels t with
        | some v => byteOfValue t v
        | none => .error (.unresolvedOperand t)

/-- The one byte an operand token emits (R68). -/
def resolveOperand (labels : LabelTable) (token : Text) : Except AsmError Byte :=
  resolveStripped labels (stripComma token)

/-- The bytes of a line's operand tokens, in order; the first that does not resolve fails the line (R68). -/
def resolveAll (labels : LabelTable) : List Text → Except AsmError (List Byte)
  | [] => .ok []
  | token :: toks =>
    match resolveOperand labels token with
    | .error e => .error e
    | .ok b =>
      match resolveAll labels toks with
      | .error e => .error e
      | .ok bs => .ok (b :: bs)

/-- The bytes of an instruction line: its mnemonic's opcode, then one byte for each operand token. Neither the number
nor the kind of operands is checked (R67, R68, R72). -/
def emitLine (m : OpcodeMap) (labels : LabelTable) : List Text → Except AsmError (List Byte)
  | [] => .ok []
  | token :: toks =>
    match mnemonicOf token with
    | none => .error (.unknownMnemonic token)
    | some k =>
      match resolveAll labels toks with
      | .error e => .error e
      | .ok bs => .ok (m k :: bs)

/-- Pass 2: the bytes of the instruction lines in order; a label declaration emits none (R63, R70). -/
def pass2 (m : OpcodeMap) (labels : LabelTable) : List SourceLine → Except AsmError (List Byte)
  | [] => .ok []
  | .label _ :: lines => pass2 m labels lines
  | .instr toks :: lines =>
    match emitLine m labels toks with
    | .error e => .error e
    | .ok bs =>
      match pass2 m labels lines with
      | .error e => .error e
      | .ok rest => .ok (bs ++ rest)

/-- `assemble(source_text)`: pass 1 over the whole text, then pass 2; the machine image, or the first error (R65, R66,
R70, R73; that the first error in reading order is the one reported is log entry 13). -/
def assemble (m : OpcodeMap) (source : Text) : Except AsmError (List Byte) :=
  match pass1 (sourceLines source) 0 [] with
  | .error e => .error e
  | .ok (labels, _) => pass2 m labels (sourceLines source)

/-! ### The source form of an instruction (R74) -/

/-- The hexadecimal digit of a value below 16. -/
def hexDigit (n : Nat) : Char :=
  if n < 10 then Char.ofNat ('0'.toNat + n) else Char.ofNat ('A'.toNat + (n - 10))

/-- A byte as a `0x` number of two digits (R71). -/
def hexByte (b : Byte) : Text := ['0', 'x', hexDigit (b.toNat / 16), hexDigit (b.toNat % 16)]

/-- A register name (R69), `R` and the digit of its index. -/
def registerName (b : Byte) : Text := ['R', hexDigit b.toNat]

/-- The source line of an instruction, as a correct program writes it (R74). -/
def sourceForm : Instr → Text
  | .nop => mnemonicSpelling .nop
  | .load reg addr => mnemonicSpelling .load ++ [' '] ++ registerName reg ++ [',', ' '] ++ hexByte addr
  | .store reg addr => mnemonicSpelling .store ++ [' '] ++ registerName reg ++ [',', ' '] ++ hexByte addr
  | .add reg1 reg2 => mnemonicSpelling .add ++ [' '] ++ registerName reg1 ++ [',', ' '] ++ registerName reg2
  | .sub reg1 reg2 => mnemonicSpelling .sub ++ [' '] ++ registerName reg1 ++ [',', ' '] ++ registerName reg2
  | .jump addr => mnemonicSpelling .jump ++ [' '] ++ hexByte addr
  | .cmp reg1 reg2 => mnemonicSpelling .cmp ++ [' '] ++ registerName reg1 ++ [',', ' '] ++ registerName reg2
  | .jeq addr => mnemonicSpelling .jeq ++ [' '] ++ hexByte addr
  | .jne addr => mnemonicSpelling .jne ++ [' '] ++ hexByte addr
  | .halt => mnemonicSpelling .halt

/-- The source text of a list of instructions, one a line (R62). -/
def programSource : List Instr → Text
  | [] => []
  | i :: is => sourceForm i ++ ['\n'] ++ programSource is

end Sys2Proof.Machine
end

