-- ==== Sys2Proof/Machine/HostPort.lean ====
section
/-! DEFINITION. The host's five operations on the core: reset, load_program, run, read, poke
(`70_reset_and_hazards.md` R160 to R170, `40_cycle.md` R87 to R90). They happen only between `run` calls, one at a time
(R170), so a session of the whole system is a list of them. -/
namespace Sys2Proof.Machine

/-! ### run -/

/-- Why a `run` call returned (R89). -/
inductive RunStatus where
  /-- running is false on return -/
  | halted
  /-- running is true on return: the cycle budget is spent -/
  | budgetExhausted
  deriving DecidableEq, Repr

/-- What `run` reports to its caller; stored nowhere in the hardware (R89). -/
structure RunReport where
  status : RunStatus
  cycles : Nat
  deriving DecidableEq, Repr

/-- The loop of `run`: at most `n` more cycles while Running, `done` of them executed already (R87, R88). -/
def runLoop (m : OpcodeMap) : Nat → Nat → State → Host.Outcome (State × Nat) Fault Refusal
  | 0, done, s => .next (s, done)
  | n + 1, done, s =>
    if s.running then
      match cycle m s with
      | .next t => runLoop m n (done + 1) t
      | .fault f => .fault f
      | .refused r => .refused r
    else .next (s, done)

/-- `Report(running, cycles)` (R89). -/
def runReport (s : State) (cycles : Nat) : RunReport :=
  { status := if s.running then .budgetExhausted else .halted, cycles := cycles }

/-- `run(max_cycles)`: cycles while Running and the count is below the budget; the count starts at 0 (R87, R88). -/
def run (m : OpcodeMap) (maxCycles : Nat) (s : State) : Host.Outcome (State × RunReport) Fault Refusal :=
  match runLoop m maxCycles 0 s with
  | .next (t, cycles) => .next (t, runReport t cycles)
  | .fault f => .fault f
  | .refused r => .refused r

/-! ### reset, load_program, poke -/

/-- `reset()`: the reset state, whatever the state before (R160, R163). -/
def hostReset (_ : State) : State := State.reset

/-- `load_program(bytes)`: the bytes copied to memory from address 0, nothing else changed; none when there are more
than 256 of them, and then nothing is changed (R164, R165; decisions D6, D18). -/
def loadProgram (bytes : List Byte) (s : State) : Option State :=
  if bytes.length ≤ 256 then some { s with mem := s.mem.writeBytes 0 bytes } else none

/-- A poke: `mem[a] <- v`, in either state of the core, with no other effect (R168). -/
def poke (a v : Byte) (s : State) : State := s.memWrite (address a) v

/-! ### reads -/

/-- What the host may read between `run` calls (R167). -/
inductive HostRead where
  | register (r : Reg)
  | memory (a : Byte)
  | flagEq
  | flagNe
  | running
  | pc
  deriving DecidableEq, Repr

/-- A value the host reads. -/
inductive HostValue where
  | byte (v : Byte)
  | bit (b : Bool)
  | counter (p : Pc)
  deriving DecidableEq, Repr

/-- A read: the value, with no side effect (R167). -/
def hostRead (s : State) : HostRead → HostValue
  | .register r => .byte (s.regRead r)
  | .memory a => .byte (s.memRead (address a))
  | .flagEq => .bit s.flagEq
  | .flagNe => .bit s.flagNe
  | .running => .bit s.running
  | .pc => .counter s.pc

/-! ### a session -/

/-- The host's operations; it has no other move (R166, R169; decisions D12, D13; log entry 9). -/
inductive HostOp where
  | reset
  | loadProgram (bytes : List Byte)
  | run (maxCycles : Nat)
  | read (what : HostRead)
  | poke (a v : Byte)
  deriving DecidableEq, Repr

/-- What an operation answers to the host. -/
inductive HostReply where
  /-- done, with nothing to tell -/
  | done
  /-- load_program refused an image of more than 256 bytes (R165; how it is reported is log entry 14) -/
  | loadFailed
  /-- the report of a run -/
  | ran (report : RunReport)
  /-- the value read -/
  | value (v : HostValue)
  deriving DecidableEq, Repr

/-- One operation of the host: the state after it and the reply (R166). -/
def hostStep (m : OpcodeMap) (op : HostOp) (s : State) : Host.Outcome (State × HostReply) Fault Refusal :=
  match op with
  | .reset => .next (hostReset s, .done)
  | .loadProgram bytes =>
    match loadProgram bytes s with
    | some t => .next (t, .done)
    | none => .next (s, .loadFailed)
  | .run maxCycles =>
    match run m maxCycles s with
    | .next (t, report) => .next (t, .ran report)
    | .fault f => .fault f
    | .refused r => .refused r
  | .read what => .next (s, .value (hostRead s what))
  | .poke a v => .next (poke a v s, .done)

/-- A sequence of host operations, each after the one before has returned (R170). -/
def hostSession (m : OpcodeMap) : List HostOp → State → Host.Outcome (State × List HostReply) Fault Refusal
  | [], s => .next (s, [])
  | op :: ops, s =>
    match hostStep m op s with
    | .next (t, reply) =>
      match hostSession m ops t with
      | .next (u, replies) => .next (u, reply :: replies)
      | .fault f => .fault f
      | .refused r => .refused r
    | .fault f => .fault f
    | .refused r => .refused r

end Sys2Proof.Machine
end

