-- ==== Sys2Proof/Safety.lean ====
section
/-! DEFINITION. What claims about the machine are stated with: the invariant of its states, and what a run without an
error halt is. -/
namespace Sys2Proof.Machine

/-- The flags are never both true (`10_state.md` R16; `90_conflicts.md` C3). -/
def State.FlagsExclusive (s : State) : Prop := ¬ (s.flagEq = true ∧ s.flagNe = true)

/-- Exactly one flag is true: what holds from the first completed CMP on (R16). -/
def State.FlagsComplementary (s : State) : Prop := s.flagNe = !s.flagEq

/-- The invariant of every state a session reaches: memory in its canonical form, the flags never both true. (That a
register holds 0 to 255 and pc 0 to 256, R10 and R13, is in the types.) -/
def State.Inv (s : State) : Prop := s.mem.wf = true ∧ s.FlagsExclusive

/-- No register, memory cell or flag differs between two states; pc and running may. -/
def State.SameData (s t : State) : Prop :=
  t.x = s.x ∧ t.flagEq = s.flagEq ∧ t.flagNe = s.flagNe ∧ t.mem = s.mem

/-- Every register but `r`, both flags and all of memory are the same in two states; pc and running may differ. -/
def State.OnlyRegister (s : State) (r : Reg) (t : State) : Prop :=
  (∀ q, q ≠ r → t.x.read q = s.x.read q) ∧ t.flagEq = s.flagEq ∧ t.flagNe = s.flagNe ∧ t.mem = s.mem

/-- Every register and both flags are the same in two states, and every memory cell but `a`; pc and running may
differ. -/
def State.OnlyCell (s : State) (a : Nat) (t : State) : Prop :=
  t.x = s.x ∧ t.flagEq = s.flagEq ∧ t.flagNe = s.flagNe ∧ ∀ b, b ≠ a → t.mem.read b = s.mem.read b

/-- The core is Halted with `pc` at `p` and nothing else changed: the end state of a halt (`60_exceptions.md` R149). -/
def State.HaltedAt (s : State) (p : Nat) (t : State) : Prop :=
  s.SameData t ∧ t.pc.val = p ∧ t.running = false

/-- The step of a Running core leads to `t` and its cycle reports outcome `o` (R146). -/
def State.CycleTo (m : OpcodeMap) (s : State) (o : CycleOutcome) (t : State) : Prop :=
  stepWith m s = .next t ∧ cycleOutcome m s = o

/-- The bytes of memory from cell `a` to the last cell, in order. -/
def State.memoryFrom (s : State) (a : Nat) : List Byte :=
  (List.range (256 - a)).map fun k => s.mem.read (a + k)

/-- A cycle's outcome is an error halt, a state that is no good end (`60_exceptions.md` R146). -/
def CycleOutcome.isError : CycleOutcome → Bool
  | .continues => false
  | .cleanHalt => false
  | .errorHalt _ => true

/-- No cycle among the next `n` ends in an error halt (R146). -/
def SafeFor (m : OpcodeMap) : Nat → State → Prop
  | 0, _ => True
  | n + 1, s =>
    s.running = true → (cycleOutcome m s).isError = false ∧ ∀ t, cycle m s = .next t → SafeFor m n t

end Sys2Proof.Machine
end

