-- ==== Sys2Proof/Certificates/Slice0/Obligations.lean ====
section
/-! DEFINITION. The statements about the machine that the provers settle. Each is named by what it states; OBLIGATIONS.json
lists them with the rules they formalise.

Where a statement speaks of an opcode map, it holds for every map the spec allows (`OpcodeMap.Admissible`, R55 and R56),
so that it does not rest on the six default bytes (log entry 1). -/

open Sys2Proof Sys2Proof.Machine

/-! ### Encoding and decoding (`30_encoding.md`) -/

/-- Decoding the bytes of any instruction, whatever follows them, gives it back with the bytes that follow; every operand
byte takes every value. -/
def Obligations.EncodeThenDecode : Prop :=
  ∀ m : OpcodeMap, Function.Injective m → ∀ (i : Instr) (rest : List Byte),
    decode m (encode m i ++ rest) = .ok (i, rest)

/-- Whatever decodes to an instruction begins with exactly that instruction's bytes. -/
def Obligations.DecodeThenEncode : Prop :=
  ∀ (m : OpcodeMap) (bytes rest : List Byte) (i : Instr),
    decode m bytes = .ok (i, rest) → bytes = encode m i ++ rest

/-- The length of an instruction is decided by its opcode byte alone (R52): 3, 2 or 1 bytes, 1 for an unknown opcode;
decoding takes exactly that many, and fetching moves pc by exactly that many where memory holds them. -/
def Obligations.LengthByOpcodeAlone : Prop :=
  ∀ m : OpcodeMap, Function.Injective m → ∀ op : Byte,
    1 + operandCountOf m op =
      (if op = m .load ∨ op = m .store ∨ op = m .add ∨ op = m .sub ∨ op = m .cmp then 3
       else if op = m .jump ∨ op = m .jeq ∨ op = m .jne then 2
       else 1) ∧
    (∀ (bytes rest : List Byte) (i : Instr), decode m (op :: bytes) = .ok (i, rest) →
      (op :: bytes).length = rest.length + (1 + operandCountOf m op)) ∧
    ∀ s : State, s.mem.read s.pc.val = op → s.pc.val + (1 + operandCountOf m op) ≤ 256 →
      (fetchInstr m s).2.pc.val = s.pc.val + (1 + operandCountOf m op)

/-- A first byte is an unknown opcode, and decoding stops there, exactly when the map gives it to no mnemonic (R57, R58). -/
def Obligations.UnknownOpcodeExactly : Prop :=
  ∀ (m : OpcodeMap) (op : Byte) (bytes : List Byte),
    decode m (op :: bytes) = .error (.unknownOpcode op) ↔ ∀ k, m k ≠ op

/-- Under the default map the unknown opcodes are 0x06 and 0x0A to 0xFE (R57). The six default bytes are the spec's own
decision D1 (log entry 1). -/
def Obligations.DefaultUnknownBytes : Prop :=
  ∀ op : Byte, decodeOpcode defaultOpcodeMap op = none ↔ op = 0x06 ∨ (0x0A ≤ op.toNat ∧ op.toNat ≤ 0xFE)

/-- Words written out from the opcode table and the spec's examples decode to the instructions they stand for. The bytes of
STORE, SUB, CMP and JNE are the spec's own decision D1 (log entry 1). -/
def Obligations.SpecWordsDecode : Prop :=
  decode defaultOpcodeMap [0x01, 0x00, 0x05, 0x03, 0x00, 0x01, 0xFF] = .ok (.load 0 5, [0x03, 0x00, 0x01, 0xFF]) ∧
  decode defaultOpcodeMap [0x02, 0x02, 0xF0] = .ok (.store 2 0xF0, []) ∧
  decode defaultOpcodeMap [0x04, 0x00, 0x01] = .ok (.sub 0 1, []) ∧
  decode defaultOpcodeMap [0x07, 0x00, 0x01] = .ok (.cmp 0 1, []) ∧
  decode defaultOpcodeMap [0x05, 0x02, 0xFF, 0xFF] = .ok (.jump 2, [0xFF, 0xFF]) ∧
  decode defaultOpcodeMap [0x09, 0x09] = .ok (.jne 9, []) ∧
  decode defaultOpcodeMap [0xFF] = .ok (.halt, []) ∧
  decode defaultOpcodeMap [0x06, 0x55] = .error (.unknownOpcode 0x06)

/-! ### The whole rule of each instruction, one step at a time (`41_` to `44_` files) -/

/-- LOAD (R100): the cell's byte goes to the register and pc moves by 3; a bad register halts with nothing loaded; at 254
the address reads as 0xFF and the load is done with the core Halted; at 255 nothing is loaded. What a bad register byte does
is the spec's decision D2 (log entry 7), and what an operand out of bounds does is its decisions D3 and D4 (log entries 5
and 6). -/
def Obligations.LoadRule : Prop :=
  ∀ m : OpcodeMap, m.Admissible → ∀ s : State, s.running = true → s.pc.val < 256 → s.mem.read s.pc.val = m .load →
    (s.pc.val ≤ 253 → ∀ i : Reg, (s.mem.read (s.pc.val + 1)).toNat = i.index →
      ∃ t, s.CycleTo m .continues t ∧ s.OnlyRegister i t ∧
        t.x.read i = s.mem.read (s.mem.read (s.pc.val + 2)).toNat ∧ t.pc.val = s.pc.val + 3 ∧ t.running = true) ∧
    (s.pc.val ≤ 253 → 4 ≤ (s.mem.read (s.pc.val + 1)).toNat →
      ∃ t, s.CycleTo m (.errorHalt .badRegister) t ∧ s.HaltedAt (s.pc.val + 3) t) ∧
    (s.pc.val = 254 → ∀ i : Reg, (s.mem.read 255).toNat = i.index →
      ∃ t, s.CycleTo m (.errorHalt .fetchOob) t ∧ s.OnlyRegister i t ∧
        t.x.read i = s.mem.read 255 ∧ t.pc.val = 256 ∧ t.running = false) ∧
    (s.pc.val = 254 → 4 ≤ (s.mem.read 255).toNat →
      ∃ t, s.CycleTo m (.errorHalt .fetchOob) t ∧ s.HaltedAt 256 t) ∧
    (s.pc.val = 255 → ∃ t, s.CycleTo m (.errorHalt .fetchOob) t ∧ s.HaltedAt 256 t)

/-- STORE (R101): the register's byte goes to the cell and pc moves by 3; a bad register halts with nothing stored; at
254 the address reads as 0xFF and the store is done with the core Halted; at 255 nothing is stored. The bad register byte and
the operand out of bounds are the spec's decisions D2, D3 and D4 (log entries 5 to 7). -/
def Obligations.StoreRule : Prop :=
  ∀ m : OpcodeMap, m.Admissible → ∀ s : State, s.mem.wf = true → s.running = true → s.pc.val < 256 →
    s.mem.read s.pc.val = m .store →
    (s.pc.val ≤ 253 → ∀ i : Reg, (s.mem.read (s.pc.val + 1)).toNat = i.index →
      ∃ t, s.CycleTo m .continues t ∧ s.OnlyCell (s.mem.read (s.pc.val + 2)).toNat t ∧
        t.mem.read (s.mem.read (s.pc.val + 2)).toNat = s.x.read i ∧ t.pc.val = s.pc.val + 3 ∧ t.running = true) ∧
    (s.pc.val ≤ 253 → 4 ≤ (s.mem.read (s.pc.val + 1)).toNat →
      ∃ t, s.CycleTo m (.errorHalt .badRegister) t ∧ s.HaltedAt (s.pc.val + 3) t) ∧
    (s.pc.val = 254 → ∀ i : Reg, (s.mem.read 255).toNat = i.index →
      ∃ t, s.CycleTo m (.errorHalt .fetchOob) t ∧ s.OnlyCell 255 t ∧
        t.mem.read 255 = s.x.read i ∧ t.pc.val = 256 ∧ t.running = false) ∧
    (s.pc.val = 254 → 4 ≤ (s.mem.read 255).toNat →
      ∃ t, s.CycleTo m (.errorHalt .fetchOob) t ∧ s.HaltedAt 256 t) ∧
    (s.pc.val = 255 → ∃ t, s.CycleTo m (.errorHalt .fetchOob) t ∧ s.HaltedAt 256 t)

/-- ADD (R111): the wrapped sum goes to the first register and pc moves by 3; a bad register, first or second, halts with
nothing written; at 254 and 255 an operand fetch is out of bounds and nothing is written. The bad register byte and the
operand out of bounds are the spec's decisions D2, D3 and D4 (log entries 5 to 7). -/
def Obligations.AddRule : Prop :=
  ∀ m : OpcodeMap, m.Admissible → ∀ s : State, s.running = true → s.pc.val < 256 → s.mem.read s.pc.val = m .add →
    (s.pc.val ≤ 253 → ∀ i j : Reg, (s.mem.read (s.pc.val + 1)).toNat = i.index →
      (s.mem.read (s.pc.val + 2)).toNat = j.index →
      ∃ t, s.CycleTo m .continues t ∧ s.OnlyRegister i t ∧
        (t.x.read i).toNat = ((s.x.read i).toNat + (s.x.read j).toNat) % 256 ∧
        t.pc.val = s.pc.val + 3 ∧ t.running = true) ∧
    (s.pc.val ≤ 253 → (4 ≤ (s.mem.read (s.pc.val + 1)).toNat ∨ 4 ≤ (s.mem.read (s.pc.val + 2)).toNat) →
      ∃ t, s.CycleTo m (.errorHalt .badRegister) t ∧ s.HaltedAt (s.pc.val + 3) t) ∧
    (254 ≤ s.pc.val → ∃ t, s.CycleTo m (.errorHalt .fetchOob) t ∧ s.HaltedAt 256 t)

/-- SUB (R112): the wrapped difference goes to the first register and pc moves by 3; the rest is as for
ADD, with the same decisions D2, D3 and D4 (log entries 5 to 7). -/
def Obligations.SubRule : Prop :=
  ∀ m : OpcodeMap, m.Admissible → ∀ s : State, s.running = true → s.pc.val < 256 → s.mem.read s.pc.val = m .sub →
    (s.pc.val ≤ 253 → ∀ i j : Reg, (s.mem.read (s.pc.val + 1)).toNat = i.index →
      (s.mem.read (s.pc.val + 2)).toNat = j.index →
      ∃ t, s.CycleTo m .continues t ∧ s.OnlyRegister i t ∧
        ((t.x.read i).toNat : Int) = (((s.x.read i).toNat : Int) - (s.x.read j).toNat) % 256 ∧
        t.pc.val = s.pc.val + 3 ∧ t.running = true) ∧
    (s.pc.val ≤ 253 → (4 ≤ (s.mem.read (s.pc.val + 1)).toNat ∨ 4 ≤ (s.mem.read (s.pc.val + 2)).toNat) →
      ∃ t, s.CycleTo m (.errorHalt .badRegister) t ∧ s.HaltedAt (s.pc.val + 3) t) ∧
    (254 ≤ s.pc.val → ∃ t, s.CycleTo m (.errorHalt .fetchOob) t ∧ s.HaltedAt 256 t)

/-- CMP (R113): EQ becomes the equality of the two registers and NE its negation, no register and no cell changes, pc
moves by 3; a bad register or an operand out of bounds halts with both flags kept (decisions D2, D3 and D4 of the spec, log
entries 5 to 7). -/
def Obligations.CmpRule : Prop :=
  ∀ m : OpcodeMap, m.Admissible → ∀ s : State, s.running = true → s.pc.val < 256 → s.mem.read s.pc.val = m .cmp →
    (s.pc.val ≤ 253 → ∀ i j : Reg, (s.mem.read (s.pc.val + 1)).toNat = i.index →
      (s.mem.read (s.pc.val + 2)).toNat = j.index →
      ∃ t, s.CycleTo m .continues t ∧ t.x = s.x ∧ t.mem = s.mem ∧
        (t.flagEq = true ↔ s.x.read i = s.x.read j) ∧ (t.flagNe = true ↔ s.x.read i ≠ s.x.read j) ∧
        t.pc.val = s.pc.val + 3 ∧ t.running = true) ∧
    (s.pc.val ≤ 253 → (4 ≤ (s.mem.read (s.pc.val + 1)).toNat ∨ 4 ≤ (s.mem.read (s.pc.val + 2)).toNat) →
      ∃ t, s.CycleTo m (.errorHalt .badRegister) t ∧ s.HaltedAt (s.pc.val + 3) t) ∧
    (254 ≤ s.pc.val → ∃ t, s.CycleTo m (.errorHalt .fetchOob) t ∧ s.HaltedAt 256 t)

/-- JUMP (R120): pc becomes the operand byte and nothing else changes; at 255 the operand reads as 0xFF, pc becomes 255
and the core is Halted (decisions D3 and D4 of the spec, log entries 5 and 6). -/
def Obligations.JumpRule : Prop :=
  ∀ m : OpcodeMap, m.Admissible → ∀ s : State, s.running = true → s.pc.val < 256 → s.mem.read s.pc.val = m .jump →
    (s.pc.val ≤ 254 →
      ∃ t, s.CycleTo m .continues t ∧ s.SameData t ∧ t.pc.val = (s.mem.read (s.pc.val + 1)).toNat ∧
        t.running = true) ∧
    (s.pc.val = 255 → ∃ t, s.CycleTo m (.errorHalt .fetchOob) t ∧ s.HaltedAt 255 t)

/-- JEQ (R121): pc becomes the operand byte when EQ is true and moves by 2 otherwise, whatever NE is, and nothing else
changes; at 255 the core is Halted, with pc 255 when EQ is true and 256 otherwise (decisions D3 and D4 of the spec, log
entries 5 and 6). -/
def Obligations.JeqRule : Prop :=
  ∀ m : OpcodeMap, m.Admissible → ∀ s : State, s.running = true → s.pc.val < 256 → s.mem.read s.pc.val = m .jeq →
    (s.pc.val ≤ 254 →
      ∃ t, s.CycleTo m .continues t ∧ s.SameData t ∧
        t.pc.val = (if s.flagEq = true then (s.mem.read (s.pc.val + 1)).toNat else s.pc.val + 2) ∧
        t.running = true) ∧
    (s.pc.val = 255 →
      ∃ t, s.CycleTo m (.errorHalt .fetchOob) t ∧ s.HaltedAt (if s.flagEq = true then 255 else 256) t)

/-- JNE (R122): as JEQ with the stored NE in the place of EQ, whatever EQ is (at 255 the same decisions D3 and D4). -/
def Obligations.JneRule : Prop :=
  ∀ m : OpcodeMap, m.Admissible → ∀ s : State, s.running = true → s.pc.val < 256 → s.mem.read s.pc.val = m .jne →
    (s.pc.val ≤ 254 →
      ∃ t, s.CycleTo m .continues t ∧ s.SameData t ∧
        t.pc.val = (if s.flagNe = true then (s.mem.read (s.pc.val + 1)).toNat else s.pc.val + 2) ∧
        t.running = true) ∧
    (s.pc.val = 255 →
      ∃ t, s.CycleTo m (.errorHalt .fetchOob) t ∧ s.HaltedAt (if s.flagNe = true then 255 else 256) t)

/-- NOP (R130): pc moves by 1, to 256 from 255, and nothing else changes. -/
def Obligations.NopRule : Prop :=
  ∀ m : OpcodeMap, m.Admissible → ∀ s : State, s.running = true → s.pc.val < 256 → s.mem.read s.pc.val = m .nop →
    ∃ t, s.CycleTo m .continues t ∧ s.SameData t ∧ t.pc.val = s.pc.val + 1 ∧ t.running = true

/-- HALT (R131): the core is Halted with pc one past the HALT byte 0xFF, nothing else changes, the outcome is the clean
halt, and no run executes a cycle after it. -/
def Obligations.HaltRule : Prop :=
  ∀ m : OpcodeMap, m.Admissible → ∀ s : State, s.running = true → s.pc.val < 256 → s.mem.read s.pc.val = 0xFF →
    ∃ t, s.CycleTo m .cleanHalt t ∧ s.HaltedAt (s.pc.val + 1) t ∧
      ∀ n : Nat, run m n t = .next (t, { status := .halted, cycles := 0 })

/-- An unknown opcode (R141): the core is Halted with pc one past that byte, whatever follows it, and nothing else
changes. -/
def Obligations.UnknownOpcodeRule : Prop :=
  ∀ m : OpcodeMap, m.Admissible → ∀ s : State, s.running = true → s.pc.val < 256 →
    (∀ k, m k ≠ s.mem.read s.pc.val) →
    ∃ t, s.CycleTo m (.errorHalt .unknownOpcode) t ∧ s.HaltedAt (s.pc.val + 1) t

/-! ### Fetch and step (`40_cycle.md`) -/

/-- Fetch (R80): below 256 the byte at pc, with pc one on and nothing else changed; at 256 the byte 0xFF, with the core
Halted and nothing else changed, pc among it (that pc stays is decision D3 of the spec, log entry 6). -/
def Obligations.FetchRule : Prop :=
  ∀ m : OpcodeMap, m.Admissible → ∀ s : State,
    (s.pc.val < 256 → (fetch m s).1 = s.mem.read s.pc.val ∧ s.SameData (fetch m s).2 ∧
      (fetch m s).2.pc.val = s.pc.val + 1 ∧ (fetch m s).2.running = s.running) ∧
    (s.pc.val = 256 → (fetch m s).1 = 0xFF ∧ s.HaltedAt 256 (fetch m s).2)

/-- When the bytes from pc to the end of memory begin with an instruction, the step of a Running core is exec of that
instruction on the state whose pc is past its bytes. -/
def Obligations.StepRunsDecoded : Prop :=
  ∀ (s : State) (i : Instr) (rest : List Byte), s.running = true →
    decode defaultOpcodeMap (s.memoryFrom s.pc.val) = .ok (i, rest) →
    ∃ h : 256 - rest.length < 257, step s = exec i (s.setPc ⟨256 - rest.length, h⟩)

/-- The same for every opcode map, and for an instruction whose operands run past the end of memory: it executes with
0xFF for each operand byte that is not there, on the state with pc at 256 and the core Halted (R85; decision D4 of the spec,
log entry 5). -/
def Obligations.StepPastTheEnd : Prop :=
  ∀ m : OpcodeMap, m.Admissible → ∀ (s : State) (i : Instr) (rest : List Byte), s.running = true → s.pc.val < 256 →
    decode m (s.memoryFrom s.pc.val ++ [0xFF, 0xFF]) = .ok (i, rest) →
    (2 ≤ rest.length → ∃ h : 258 - rest.length < 257, stepWith m s = exec i (s.setPc ⟨258 - rest.length, h⟩)) ∧
    (rest.length < 2 → stepWith m s = exec i ((s.setPc 256).raiseHalt) ∧
      cycleOutcome m s = .errorHalt .fetchOob)

/-- An opcode fetch at 256 (R86): the core is Halted, pc stays 256, nothing else changes, and the outcome is the error
halt FETCH_OOB and not a clean halt. The spec derives it from R80, R81 and R131. -/
def Obligations.OpcodeFetchAtTheEnd : Prop :=
  ∀ m : OpcodeMap, m.Admissible → ∀ s : State, s.running = true → s.pc.val = 256 →
    ∃ t, s.CycleTo m (.errorHalt .fetchOob) t ∧ s.HaltedAt 256 t

/-- In every state, with any bytes in memory and under any opcode map, a cycle answers a next state: never a fault, never a
refusal (R58). -/
def Obligations.EveryCycleIsDefined : Prop :=
  ∀ (m : OpcodeMap) (s : State), (∃ t, cycle m s = .next t) ∧ ∃ t, stepWith m s = .next t

/-- Halted is terminal (R150, R90): a step of a Halted core changes nothing, and neither does a run, which executes no
cycle and reports halted. That a step of a Halted core is `run(1)` and not a stop is the model's reading (log entry 2). -/
def Obligations.HaltedIsTerminal : Prop :=
  ∀ (m : OpcodeMap) (s : State) (n : Nat), s.running = false →
    stepWith m s = .next s ∧ run m n s = .next (s, { status := .halted, cycles := 0 })

/-! ### What exec does with each instruction, and where it completes -/

/-- LOAD and STORE complete whenever their register byte names a register, in every state: LOAD writes the cell's byte to
the register and nothing else, STORE the register's byte to the cell and nothing else. -/
def Obligations.DataTransferCompletes : Prop :=
  ∀ (s : State) (reg addr : Byte) (i : Reg), reg.toNat = i.index →
    (∃ t, exec (.load reg addr) s = .next t ∧ s.OnlyRegister i t ∧ t.x.read i = s.mem.read addr.toNat ∧
      t.pc = s.pc ∧ t.running = s.running) ∧
    (s.mem.wf = true →
      ∃ t, exec (.store reg addr) s = .next t ∧ s.OnlyCell addr.toNat t ∧ t.mem.read addr.toNat = s.x.read i ∧
        t.pc = s.pc ∧ t.running = s.running)

/-- ADD, SUB and CMP complete whenever both register bytes name registers, in every state: ADD writes the wrapped sum and
SUB the wrapped difference to the first register and nothing else, CMP the two flags and nothing else. -/
def Obligations.AluCompletes : Prop :=
  ∀ (s : State) (b c : Byte) (i j : Reg), b.toNat = i.index → c.toNat = j.index →
    (∃ t, exec (.add b c) s = .next t ∧ s.OnlyRegister i t ∧
      (t.x.read i).toNat = ((s.x.read i).toNat + (s.x.read j).toNat) % 256 ∧ t.pc = s.pc ∧ t.running = s.running) ∧
    (∃ t, exec (.sub b c) s = .next t ∧ s.OnlyRegister i t ∧
      ((t.x.read i).toNat : Int) = (((s.x.read i).toNat : Int) - (s.x.read j).toNat) % 256 ∧
      t.pc = s.pc ∧ t.running = s.running) ∧
    (∃ t, exec (.cmp b c) s = .next t ∧ t.x = s.x ∧ t.mem = s.mem ∧
      (t.flagEq = true ↔ s.x.read i = s.x.read j) ∧ t.flagNe = !t.flagEq ∧ t.pc = s.pc ∧ t.running = s.running)

/-- JUMP, JEQ and JNE complete in every state with any operand byte: pc becomes that byte, for JEQ only when EQ is true
and for JNE only when NE is, and nothing else changes. -/
def Obligations.ControlTransferCompletes : Prop :=
  ∀ (s : State) (addr : Byte),
    (∃ t, exec (.jump addr) s = .next t ∧ s.SameData t ∧ t.running = s.running ∧ t.pc.val = addr.toNat) ∧
    (∃ t, exec (.jeq addr) s = .next t ∧ s.SameData t ∧ t.running = s.running ∧
      t.pc.val = if s.flagEq = true then addr.toNat else s.pc.val) ∧
    (∃ t, exec (.jne addr) s = .next t ∧ s.SameData t ∧ t.running = s.running ∧
      t.pc.val = if s.flagNe = true then addr.toNat else s.pc.val)

/-- NOP and HALT complete in every state: NOP changes nothing more than its fetch did, HALT clears running and nothing
else. -/
def Obligations.SystemCompletes : Prop :=
  ∀ s : State,
    exec .nop s = .next s ∧
    ∃ t, exec .halt s = .next t ∧ s.HaltedAt s.pc.val t

/-- BAD_REGISTER (R143; decision D2 of the spec, log entry 7): each of the five instructions with a register operand
halts the core when a register byte is 4 to 255, with registers, memory, flags and pc as they were. -/
def Obligations.BadRegisterHalts : Prop :=
  ∀ (s : State) (b c : Byte),
    (4 ≤ b.toNat →
      (∃ t, exec (.load b c) s = .next t ∧ s.HaltedAt s.pc.val t) ∧
      (∃ t, exec (.store b c) s = .next t ∧ s.HaltedAt s.pc.val t)) ∧
    (4 ≤ b.toNat ∨ 4 ≤ c.toNat →
      (∃ t, exec (.add b c) s = .next t ∧ s.HaltedAt s.pc.val t) ∧
      (∃ t, exec (.sub b c) s = .next t ∧ s.HaltedAt s.pc.val t) ∧
      (∃ t, exec (.cmp b c) s = .next t ∧ s.HaltedAt s.pc.val t))

/-! ### Frames -/

/-- LOAD, ADD and SUB, on every operand: no register but the one their first byte names changes, no flag, pc, or byte of
memory; running is never set. -/
def Obligations.RegisterWritersFrame : Prop :=
  ∀ (s t : State) (b c : Byte) (i : Instr), i = .load b c ∨ i = .add b c ∨ i = .sub b c → exec i s = .next t →
    (∀ r : Reg, b.toNat ≠ r.index → t.x.read r = s.x.read r) ∧
    t.flagEq = s.flagEq ∧ t.flagNe = s.flagNe ∧ t.pc = s.pc ∧ (t.running = true → s.running = true) ∧
    ∀ a : Nat, t.mem.read a = s.mem.read a

/-- STORE, on every operand: no register, flag or pc changes, and no byte of memory but the one at the address operand;
running is never set. -/
def Obligations.StoreFrame : Prop :=
  ∀ (s t : State) (reg addr : Byte), s.mem.wf = true → exec (.store reg addr) s = .next t →
    t.x = s.x ∧ t.flagEq = s.flagEq ∧ t.flagNe = s.flagNe ∧ t.pc = s.pc ∧ (t.running = true → s.running = true) ∧
    ∀ a : Nat, a ≠ address addr → t.mem.read a = s.mem.read a

/-- CMP, on every operand: no register, pc or byte of memory changes; running is never set. -/
def Obligations.CompareFrame : Prop :=
  ∀ (s t : State) (b c : Byte), exec (.cmp b c) s = .next t →
    t.x = s.x ∧ t.pc = s.pc ∧ (t.running = true → s.running = true) ∧ ∀ a : Nat, t.mem.read a = s.mem.read a

/-- JUMP, JEQ, JNE, NOP and HALT, on every operand: no register, flag or byte of memory changes; running is never set,
and only HALT clears it. -/
def Obligations.ControlFrame : Prop :=
  ∀ (s t : State) (a : Byte) (i : Instr), i = .jump a ∨ i = .jeq a ∨ i = .jne a ∨ i = .nop ∨ i = .halt →
    exec i s = .next t →
    t.x = s.x ∧ t.flagEq = s.flagEq ∧ t.flagNe = s.flagNe ∧ (i ≠ .halt → t.running = s.running) ∧
    (t.running = true → s.running = true) ∧ ∀ b : Nat, t.mem.read b = s.mem.read b

/-! ### Whole-machine rules of the prose -/

/-- The flags change only at CMP (R15): a step from any state whose next opcode is not CMP's keeps both flags. -/
def Obligations.FlagsChangeOnlyAtCmp : Prop :=
  ∀ m : OpcodeMap, m.Admissible → ∀ s t : State, stepWith m s = .next t →
    s.mem.read s.pc.val ≠ m .cmp ∨ s.pc.val = 256 → t.flagEq = s.flagEq ∧ t.flagNe = s.flagNe

/-- A register is written only by LOAD, ADD and SUB (R11): a step whose next opcode is none of theirs keeps all four. -/
def Obligations.RegistersChangeOnlyAtLoadAddSub : Prop :=
  ∀ m : OpcodeMap, m.Admissible → ∀ s t : State, stepWith m s = .next t →
    (s.mem.read s.pc.val ≠ m .load ∧ s.mem.read s.pc.val ≠ m .add ∧ s.mem.read s.pc.val ≠ m .sub) ∨ s.pc.val = 256 →
    t.x = s.x

/-- Memory changes only by STORE (R30, R181): a step whose next opcode is not STORE's keeps every cell, and one whose
opcode is STORE's keeps every cell but the one its address operand names (255 when that operand is out of bounds, R85). -/
def Obligations.MemoryChangesOnlyAtStore : Prop :=
  ∀ m : OpcodeMap, m.Admissible → ∀ s t : State, s.mem.wf = true → stepWith m s = .next t →
    (s.mem.read s.pc.val ≠ m .store ∨ s.pc.val = 256 → t.mem = s.mem) ∧
    ∀ a : Nat, a ≠ (if s.pc.val ≤ 253 then (s.mem.read (s.pc.val + 2)).toNat else 255) →
      t.mem.read a = s.mem.read a

/-- Reset is the only transition from Halted to Running, and its result does not depend on the state before it (R163):
after every other operation of the host a Halted core is Halted, with registers, flags and pc as they were. -/
def Obligations.OnlyResetLeavesHalted : Prop :=
  (∀ (m : OpcodeMap) (op : HostOp) (s t : State) (reply : HostReply), op ≠ .reset → s.running = false →
    hostStep m op s = .next (t, reply) → t.running = false ∧ t.x = s.x ∧ t.pc = s.pc ∧
      t.flagEq = s.flagEq ∧ t.flagNe = s.flagNe) ∧
  ∀ (m : OpcodeMap) (s u : State), ∃ t, t.running = true ∧
    hostStep m .reset s = .next (t, .done) ∧ hostStep m .reset u = .next (t, .done)

/-- From the first completed CMP on, exactly one flag is true (R16, which the spec derives): a step keeps NE = not EQ. -/
def Obligations.ComplementaryFlagsAreKept : Prop :=
  ∀ (m : OpcodeMap) (s t : State), s.FlagsComplementary → stepWith m s = .next t → t.FlagsComplementary

/-- The outcome a cycle reports agrees with the state it ends in (R146; that there is such a report is decision D7 of the
spec, log entry 4): it is `continues` exactly when the core is still
Running. -/
def Obligations.OutcomeAgreesWithRunning : Prop :=
  ∀ (m : OpcodeMap) (s t : State), s.running = true → cycle m s = .next t →
    (cycleOutcome m s = .continues ↔ t.running = true)

/-- A cycle's outcome is the clean halt exactly when the byte at pc is there and is HALT's (R131, R140, R148). -/
def Obligations.CleanHaltExactlyAtHalt : Prop :=
  ∀ m : OpcodeMap, m.Admissible → ∀ s : State, s.running = true →
    (cycleOutcome m s = .cleanHalt ↔ s.pc.val < 256 ∧ s.mem.read s.pc.val = 0xFF)

/-- A store is seen by the next fetch of that cell (R41, which the spec derives), whichever cell it is and whatever was there. -/
def Obligations.StoreIsSeenByFetch : Prop :=
  ∀ m : OpcodeMap, m.Admissible → ∀ (s : State) (i : Reg), s.mem.wf = true → s.running = true → s.pc.val ≤ 253 →
    s.mem.read s.pc.val = m .store → (s.mem.read (s.pc.val + 1)).toNat = i.index →
    ∃ t, stepWith m s = .next t ∧
      (fetch m (t.setPc (jumpTarget (s.mem.read (s.pc.val + 2))))).1 = s.x.read i

/-- Subtraction undoes addition, through every wrap: ADD i, j then SUB i, j with two different registers leaves the state
as it was. -/
def Obligations.SubUndoesAdd : Prop :=
  ∀ (s : State) (b c : Byte) (i j : Reg), b.toNat = i.index → c.toNat = j.index → i ≠ j →
    ∃ t, exec (.add b c) s = .next t ∧ exec (.sub b c) t = .next s

/-! ### Invariants -/

/-- Every step keeps the machine's invariant: memory in its canonical form and the flags never both true. -/
def Obligations.StepKeepsInvariant : Prop :=
  (∀ s t : State, s.Inv → step s = .next t → t.Inv) ∧
  ∀ (m : OpcodeMap) (s t : State), s.Inv → stepWith m s = .next t → t.Inv

/-- The reset state meets the invariant. -/
def Obligations.ResetMeetsInvariant : Prop := State.reset.Inv

/-- Any session of host operations, from any state that meets the invariant, answers a state that meets it, and one reply
for each operation. -/
def Obligations.SessionKeepsInvariant : Prop :=
  ∀ (m : OpcodeMap) (ops : List HostOp) (s : State), s.Inv →
    ∃ t replies, hostSession m ops s = .next (t, replies) ∧ t.Inv ∧ replies.length = ops.length

/-! ### Reset, load, poke, run (`40_cycle.md` R87 to R90, `70_reset_and_hazards.md`) -/

/-- Reset (R22, R160): registers zero, pc zero, both flags false, running true, every cell zero, whatever the state
before. -/
def Obligations.ResetRule : Prop :=
  ∀ s : State, (∀ r : Reg, (hostReset s).x.read r = 0) ∧ (hostReset s).pc = 0 ∧ (hostReset s).flagEq = false ∧
    (hostReset s).flagNe = false ∧ (hostReset s).running = true ∧ ∀ a : Nat, (hostReset s).mem.read a = 0

/-- load_program of up to 256 bytes (R164): they go to cells 0 upward, and every other cell, register, flag, pc and running
stay. That the tail of memory and running stay is decisions D6 and D18 of the spec (log entry 15). -/
def Obligations.LoadProgramRule : Prop :=
  ∀ (m : OpcodeMap) (s : State) (bytes : List Byte), s.mem.wf = true → bytes.length ≤ 256 →
    ∃ t, hostStep m (.loadProgram bytes) s = .next (t, .done) ∧ t.x = s.x ∧ t.pc = s.pc ∧ t.flagEq = s.flagEq ∧
      t.flagNe = s.flagNe ∧ t.running = s.running ∧
      (∀ (k : Nat) (h : k < bytes.length), t.mem.read k = bytes[k]) ∧
      ∀ k : Nat, bytes.length ≤ k → t.mem.read k = s.mem.read k

/-- load_program of more than 256 bytes fails and changes nothing; of exactly 256 it succeeds (R165). -/
def Obligations.OversizedLoadFails : Prop :=
  ∀ (m : OpcodeMap) (s : State) (bytes : List Byte),
    (256 < bytes.length → hostStep m (.loadProgram bytes) s = .next (s, .loadFailed)) ∧
    (bytes.length = 256 → s.mem.wf = true → ∃ t, hostStep m (.loadProgram bytes) s = .next (t, .done) ∧
      ∀ (k : Nat) (h : k < bytes.length), t.mem.read k = bytes[k])

/-- A poke (R168), in either state of the core, sets one cell, so that it reads the byte poked, and changes nothing else. -/
def Obligations.PokeRule : Prop :=
  ∀ (m : OpcodeMap) (s : State) (a v : Byte), s.mem.wf = true →
    ∃ t, hostStep m (.poke a v) s = .next (t, .done) ∧ s.OnlyCell a.toNat t ∧ t.mem.read a.toNat = v ∧
      t.pc = s.pc ∧ t.running = s.running

/-- run (R87; the count and the report are decisions D8 and D9 of the spec, R88 and R89, log entry 17): it answers
within its budget; when the core is Running on return the whole budget was spent and the report says so, and when it is
Halted the report says halted. -/
def Obligations.RunReportRule : Prop :=
  ∀ (m : OpcodeMap) (n : Nat) (s : State), ∃ t report, run m n s = .next (t, report) ∧ report.cycles ≤ n ∧
    (t.running = true → report.status = .budgetExhausted ∧ report.cycles = n) ∧
    (t.running = false → report.status = .halted)

/-- Two runs one after the other are one run of the sum of their budgets: in the end state, which R90 derives, and in the
status and the count of cycles, which rest on decisions D8 and D9 of the spec (R88, R89, log entry 17). -/
def Obligations.RunsCompose : Prop :=
  ∀ (m : OpcodeMap) (n k : Nat) (s t u : State) (r q : RunReport),
    run m n s = .next (t, r) → run m k t = .next (u, q) →
    run m (n + k) s = .next (u, { status := q.status, cycles := r.cycles + q.cycles })

/-- `k` steps of the machine are `run(k)`: the same end state (the reading of `step` as `run(1)` is log entry 2). -/
def Obligations.StepsAreRun : Prop :=
  ∀ (k : Nat) (s t : State),
    Host.Core.run Sys2Proof.core k s = .next t ↔ ∃ report, run defaultOpcodeMap k s = .next (t, report)

/-- A run without an error halt that ends Halted ends just past a HALT byte (R145, R146). -/
def Obligations.SafeRunEndsAtHalt : Prop :=
  ∀ m : OpcodeMap, m.Admissible → ∀ (n : Nat) (s t : State) (report : RunReport), s.running = true → SafeFor m n s →
    run m n s = .next (t, report) → t.running = false →
    1 ≤ t.pc.val ∧ t.mem.read (t.pc.val - 1) = 0xFF

/-! ### The assembler (`30_encoding.md` R62 to R74) -/

/-- A correct program, one instruction a line in the source form of R74, assembles to the bytes of its instructions in
order (R70, R74), whatever the opcode map. -/
def Obligations.SourceFormAssembles : Prop :=
  ∀ (m : OpcodeMap) (is : List Instr), (∀ i ∈ is, i.wellFormed = true) →
    assemble m (programSource is) = .ok (is.flatMap (encode m))

/-- The image is as long as the address counter of pass 1 says (R65, R70). -/
def Obligations.ImageLengthIsCounter : Prop :=
  ∀ (m : OpcodeMap) (source : Text) (image : List Byte), assemble m source = .ok image →
    ∃ labels, pass1 (sourceLines source) 0 [] = .ok (labels, image.length)

/-- A source that declares one label twice does not assemble (R63): the error names a duplicate label. -/
def Obligations.DuplicateLabelFails : Prop :=
  ∀ (m : OpcodeMap) (source name : Text) (before between after : List SourceLine),
    sourceLines source = before ++ .label name :: between ++ .label name :: after →
    ∃ dup, assemble m source = .error (.duplicateLabel dup)

/-- A register name resolves to its index before anything else, whatever labels there are (R68, R69). -/
def Obligations.RegisterNamesResolveFirst : Prop :=
  ∀ (labels : LabelTable) (b : Byte), b.toNat < 4 →
    resolveOperand labels (registerName b) = .ok b ∧ resolveOperand labels (registerName b ++ [',']) = .ok b
end

