-- ==== Sys2Proof/Laws/Decode.lean ====
section
/-! SUPPORT. What the opcode map, the operand splitter and the byte counts do, said once. -/
namespace Sys2Proof

theorem Mnemonic.mem_all (k : Mnemonic) : k ∈ Mnemonic.all := by
  cases k <;> decide

/-- The default map is one the spec allows (R55, R56). -/
theorem defaultOpcodeMap_admissible : defaultOpcodeMap.Admissible := by
  refine ⟨?_, rfl, rfl, rfl, rfl, ?_⟩
  · intro j k h
    revert h
    cases j <;> cases k <;> decide
  · intro k
    cases k <;> decide

theorem decodeOpcode_self {m : OpcodeMap} (hm : Function.Injective m) (k : Mnemonic) :
    decodeOpcode m (m k) = some k := by
  cases h : decodeOpcode m (m k) with
  | none =>
    have := List.find?_eq_none.mp h k (Mnemonic.mem_all k)
    simp at this
  | some j =>
    have := List.find?_some h
    rw [hm (beq_iff_eq.mp this)]

theorem decodeOpcode_some {m : OpcodeMap} {op : Byte} {k : Mnemonic} (h : decodeOpcode m op = some k) : m k = op := by
  simpa using List.find?_some h

theorem decodeOpcode_none {m : OpcodeMap} {op : Byte} : decodeOpcode m op = none ↔ ∀ k, m k ≠ op := by
  rw [decodeOpcode, List.find?_eq_none]
  exact ⟨fun h k => by simpa using h k (Mnemonic.mem_all k), fun h k _ => by simpa using h k⟩

/-- The operand bytes of an instruction are as many as its format has. -/
theorem Instr.operandBytes_length (i : Instr) : i.operandBytes.length = i.mnemonic.format.operandCount := by
  cases i <;> rfl

/-- The splitter takes an instruction's own operand bytes and leaves the rest. -/
theorem takeOperands_operandBytes (i : Instr) (rest : List Byte) :
    takeOperands i.mnemonic (i.operandBytes ++ rest) = .ok (i, rest) := by
  cases i <;> rfl

/-- What the splitter answers is an instruction of that mnemonic, whose operand bytes stood at the head. -/
theorem takeOperands_ok {k : Mnemonic} {bytes rest : List Byte} {i : Instr}
    (h : takeOperands k bytes = .ok (i, rest)) : i.mnemonic = k ∧ bytes = i.operandBytes ++ rest := by
  unfold takeOperands at h
  split at h <;> first
    | (injection h with h; injection h with h1 h2; subst h1; subst h2; exact ⟨rfl, rfl⟩)
    | injection h

/-- The splitter answers an instruction whenever there are bytes enough. -/
theorem takeOperands_of_length {k : Mnemonic} {bytes : List Byte} (h : bytes.length = k.format.operandCount) :
    ∃ i : Instr, i.mnemonic = k ∧ i.operandBytes = bytes ∧ takeOperands k bytes = .ok (i, []) := by
  cases k <;> simp only [Mnemonic.format, Format.operandCount] at h
  all_goals first
    | (obtain rfl := List.length_eq_zero_iff.mp h; exact ⟨_, rfl, rfl, rfl⟩)
    | (obtain ⟨a, rfl⟩ := List.length_eq_one_iff.mp h; exact ⟨_, rfl, rfl, rfl⟩)
    | (obtain ⟨a, b, rfl⟩ := List.length_eq_two.mp h; exact ⟨_, rfl, rfl, rfl⟩)

theorem operandCountOf_self {m : OpcodeMap} (hm : Function.Injective m) (k : Mnemonic) :
    operandCountOf m (m k) = k.format.operandCount := by
  rw [operandCountOf, decodeOpcode_self hm]

/-- A well-formed instruction's register operands are below 4. -/
theorem Instr.wellFormed_iff (i : Instr) : i.wellFormed = true ↔ ∀ b ∈ i.registerOperands, b.toNat < 4 := by
  simp [Instr.wellFormed]

end Sys2Proof
end

