-- ==== Sys2Proof/Laws/State.lean ====
section
/-! SUPPORT. One lemma per field for each update of the state, true by unfolding, so that no later proof unfolds a record
update. -/
namespace Sys2Proof.Machine

/-! ### memWrite -/

@[simp] theorem State.memWrite_x (s : State) (a : Nat) (v : Byte) : (s.memWrite a v).x = s.x := rfl
@[simp] theorem State.memWrite_pc (s : State) (a : Nat) (v : Byte) : (s.memWrite a v).pc = s.pc := rfl
@[simp] theorem State.memWrite_flagEq (s : State) (a : Nat) (v : Byte) : (s.memWrite a v).flagEq = s.flagEq := rfl
@[simp] theorem State.memWrite_flagNe (s : State) (a : Nat) (v : Byte) : (s.memWrite a v).flagNe = s.flagNe := rfl
@[simp] theorem State.memWrite_running (s : State) (a : Nat) (v : Byte) : (s.memWrite a v).running = s.running := rfl
@[simp] theorem State.memWrite_mem (s : State) (a : Nat) (v : Byte) : (s.memWrite a v).mem = s.mem.write a v := rfl

/-! ### regWrite -/

@[simp] theorem State.regWrite_x (s : State) (r : Reg) (v : Byte) : (s.regWrite r v).x = s.x.write r v := rfl
@[simp] theorem State.regWrite_pc (s : State) (r : Reg) (v : Byte) : (s.regWrite r v).pc = s.pc := rfl
@[simp] theorem State.regWrite_flagEq (s : State) (r : Reg) (v : Byte) : (s.regWrite r v).flagEq = s.flagEq := rfl
@[simp] theorem State.regWrite_flagNe (s : State) (r : Reg) (v : Byte) : (s.regWrite r v).flagNe = s.flagNe := rfl
@[simp] theorem State.regWrite_running (s : State) (r : Reg) (v : Byte) : (s.regWrite r v).running = s.running := rfl
@[simp] theorem State.regWrite_mem (s : State) (r : Reg) (v : Byte) : (s.regWrite r v).mem = s.mem := rfl

/-! ### setPc -/

@[simp] theorem State.setPc_x (s : State) (p : Pc) : (s.setPc p).x = s.x := rfl
@[simp] theorem State.setPc_pc (s : State) (p : Pc) : (s.setPc p).pc = p := rfl
@[simp] theorem State.setPc_flagEq (s : State) (p : Pc) : (s.setPc p).flagEq = s.flagEq := rfl
@[simp] theorem State.setPc_flagNe (s : State) (p : Pc) : (s.setPc p).flagNe = s.flagNe := rfl
@[simp] theorem State.setPc_running (s : State) (p : Pc) : (s.setPc p).running = s.running := rfl
@[simp] theorem State.setPc_mem (s : State) (p : Pc) : (s.setPc p).mem = s.mem := rfl

/-! ### raiseHalt -/

@[simp] theorem State.raiseHalt_x (s : State) : s.raiseHalt.x = s.x := rfl
@[simp] theorem State.raiseHalt_pc (s : State) : s.raiseHalt.pc = s.pc := rfl
@[simp] theorem State.raiseHalt_flagEq (s : State) : s.raiseHalt.flagEq = s.flagEq := rfl
@[simp] theorem State.raiseHalt_flagNe (s : State) : s.raiseHalt.flagNe = s.flagNe := rfl
@[simp] theorem State.raiseHalt_running (s : State) : s.raiseHalt.running = false := rfl
@[simp] theorem State.raiseHalt_mem (s : State) : s.raiseHalt.mem = s.mem := rfl

/-! ### compare -/

@[simp] theorem State.compare_x (s : State) (u v : Byte) : (s.compare u v).x = s.x := rfl
@[simp] theorem State.compare_pc (s : State) (u v : Byte) : (s.compare u v).pc = s.pc := rfl
@[simp] theorem State.compare_flagEq (s : State) (u v : Byte) : (s.compare u v).flagEq = decide (u = v) := rfl
@[simp] theorem State.compare_flagNe (s : State) (u v : Byte) : (s.compare u v).flagNe = !decide (u = v) := rfl
@[simp] theorem State.compare_running (s : State) (u v : Byte) : (s.compare u v).running = s.running := rfl
@[simp] theorem State.compare_mem (s : State) (u v : Byte) : (s.compare u v).mem = s.mem := rfl

/-! ### Reads through the accessors -/

@[simp] theorem State.regRead_eq (s : State) (r : Reg) : s.regRead r = s.x.read r := rfl
@[simp] theorem State.memRead_eq (s : State) (a : Nat) : s.memRead a = s.mem.read a := rfl

end Sys2Proof.Machine
end

