-- ==== Sys2Proof/Laws/Ops.lean ====
section
/-! SUPPORT. What each shared operation does, said once: memory, the register file, operands, the ALU. Later proofs cite
these lemmas and do not unfold the operations. -/
namespace Sys2Proof.Machine

/-! ### The register file -/

theorem RegFile.read_write (f : RegFile) (r q : Reg) (v : Byte) :
    (f.write r v).read q = if q = r then v else f.read q := by
  cases r <;> cases q <;> rfl

@[simp] theorem RegFile.read_write_self (f : RegFile) (r : Reg) (v : Byte) : (f.write r v).read r = v := by
  simp [RegFile.read_write]

theorem RegFile.read_write_ne (f : RegFile) {r q : Reg} (h : q ≠ r) (v : Byte) :
    (f.write r v).read q = f.read q := by
  simp [RegFile.read_write, h]

/-- Register files that read alike are equal. -/
theorem RegFile.ext_read {f g : RegFile} (h : ∀ r, f.read r = g.read r) : f = g := by
  have h0 := h .r0; have h1 := h .r1; have h2 := h .r2; have h3 := h .r3
  cases f; cases g
  simp only [RegFile.read] at h0 h1 h2 h3
  simp [h0, h1, h2, h3]

/-! ### Memory: the canonical form -/

theorem Memory.wfFrom_cons {lo a : Nat} {v : Byte} {rest : Memory} :
    Memory.wfFrom lo ((a, v) :: rest) = true ↔
      lo ≤ a ∧ a < 256 ∧ v ≠ Memory.unlisted ∧ Memory.wfFrom (a + 1) rest = true := by
  simp [Memory.wfFrom, and_assoc]

theorem Memory.wfFrom_mono {lo hi : Nat} (h : lo ≤ hi) {mem : Memory} (hw : Memory.wfFrom hi mem = true) :
    Memory.wfFrom lo mem = true := by
  cases mem with
  | nil => rfl
  | cons e rest =>
    obtain ⟨h1, h2, h3, h4⟩ := Memory.wfFrom_cons.mp hw
    exact Memory.wfFrom_cons.mpr ⟨h.trans h1, h2, h3, h4⟩

theorem Memory.write_wfFrom {lo a : Nat} (v : Byte) (hlo : lo ≤ a) (ha : a < 256) {mem : Memory}
    (hw : Memory.wfFrom lo mem = true) : Memory.wfFrom lo (Memory.write mem a v) = true := by
  induction mem generalizing lo with
  | nil =>
    unfold Memory.write
    split
    · rfl
    · next hv => exact Memory.wfFrom_cons.mpr ⟨hlo, ha, hv, rfl⟩
  | cons e rest ih =>
    obtain ⟨b, w⟩ := e
    obtain ⟨h1, h2, h3, h4⟩ := Memory.wfFrom_cons.mp hw
    unfold Memory.write
    split
    · next hab =>
      split
      · exact hw
      · next hv => exact Memory.wfFrom_cons.mpr ⟨hlo, ha, hv, Memory.wfFrom_cons.mpr ⟨hab, h2, h3, h4⟩⟩
    · next hab =>
      split
      · next heq =>
        subst heq
        split
        · exact Memory.wfFrom_mono (by omega) h4
        · next hv => exact Memory.wfFrom_cons.mpr ⟨h1, h2, hv, h4⟩
      · next hne => exact Memory.wfFrom_cons.mpr ⟨h1, h2, h3, ih (by omega) h4⟩

/-- A write to a cell that exists keeps the canonical form. -/
theorem Memory.write_wf {mem : Memory} (hw : mem.wf = true) {a : Nat} (ha : a < 256) (v : Byte) :
    (mem.write a v).wf = true :=
  Memory.write_wfFrom v (Nat.zero_le a) ha hw

/-- Writing a run of bytes keeps the canonical form. -/
theorem Memory.writeBytes_wf {mem : Memory} (hw : mem.wf = true) (a : Nat) (bytes : List Byte) :
    (mem.writeBytes a bytes).wf = true := by
  induction bytes generalizing mem a with
  | nil => exact hw
  | cons v vs ih =>
    unfold Memory.writeBytes
    split
    · next ha => exact ih (Memory.write_wf hw ha v) (a + 1)
    · exact hw

/-! ### Memory: read after write -/

/-- Below its first address a canonical memory reads as unlisted. -/
theorem Memory.read_below {lo : Nat} {mem : Memory} (hw : Memory.wfFrom lo mem = true) {a : Nat} (ha : a < lo) :
    mem.read a = Memory.unlisted := by
  induction mem generalizing lo with
  | nil => rfl
  | cons e rest ih =>
    obtain ⟨b, w⟩ := e
    obtain ⟨h1, -, -, h4⟩ := Memory.wfFrom_cons.mp hw
    have hne : a ≠ b := by omega
    simp only [Memory.read, hne, if_false]
    exact ih h4 (by omega)

theorem Memory.read_write_from {lo : Nat} {mem : Memory} (hw : Memory.wfFrom lo mem = true) (a b : Nat) (v : Byte) :
    (mem.write a v).read b = if b = a then v else mem.read b := by
  induction mem generalizing lo with
  | nil =>
    by_cases hv : v = Memory.unlisted <;> simp [Memory.write, Memory.read, hv]
  | cons e rest ih =>
    obtain ⟨c, w⟩ := e
    obtain ⟨-, -, -, h4⟩ := Memory.wfFrom_cons.mp hw
    have ih := ih h4
    rcases Nat.lt_trichotomy a c with hac | hac | hac
    · have hb : Memory.read ((c, w) :: rest) a = Memory.unlisted :=
        Memory.read_below (lo := c) (Memory.wfFrom_cons.mpr ⟨le_refl c, by
          have := (Memory.wfFrom_cons.mp hw).2.1; exact this, (Memory.wfFrom_cons.mp hw).2.2.1, h4⟩) hac
      by_cases hv : v = Memory.unlisted
      · rw [show Memory.write ((c, w) :: rest) a v = (c, w) :: rest by simp [Memory.write, hac, hv]]
        split
        · next h => rw [h, hb, hv]
        · rfl
      · rw [show Memory.write ((c, w) :: rest) a v = (a, v) :: (c, w) :: rest by simp [Memory.write, hac, hv]]
        simp only [Memory.read]
    · subst hac
      by_cases hv : v = Memory.unlisted
      · rw [show Memory.write ((a, w) :: rest) a v = rest by simp [Memory.write, hv]]
        split
        · next h => rw [h, hv]; exact Memory.read_below h4 (Nat.lt_succ_self a)
        · next h => simp [Memory.read, h]
      · rw [show Memory.write ((a, w) :: rest) a v = (a, v) :: rest by simp [Memory.write, hv]]
        by_cases h : b = a <;> simp [Memory.read, h]
    · rw [show Memory.write ((c, w) :: rest) a v = (c, w) :: Memory.write rest a v by
        simp [Memory.write, Nat.not_lt.mpr hac.le, hac.ne']]
      simp only [Memory.read]
      by_cases hbc : b = c
      · have : b ≠ a := by omega
        simp [hbc, hac.ne]
      · simp only [hbc, if_false]; exact ih

/-- A canonical memory reads the byte written at the address written, and elsewhere what it read before. -/
theorem Memory.read_write {mem : Memory} (hw : mem.wf = true) (a b : Nat) (v : Byte) :
    (mem.write a v).read b = if b = a then v else mem.read b :=
  Memory.read_write_from hw a b v

/-- What a canonical memory reads after a run of bytes was written from cell `a` on. -/
theorem Memory.read_writeBytes {mem : Memory} (hw : mem.wf = true) (a : Nat) (bytes : List Byte) (b : Nat) :
    (mem.writeBytes a bytes).read b =
      if a ≤ b ∧ b < 256 then (bytes[b - a]?).getD (mem.read b) else mem.read b := by
  induction bytes generalizing mem a with
  | nil => simp [Memory.writeBytes]
  | cons v vs ih =>
    unfold Memory.writeBytes
    by_cases ha : a < 256
    · simp only [ha, if_true]
      rw [ih (Memory.write_wf hw ha v), Memory.read_write hw]
      rcases Nat.lt_trichotomy b a with hba | hba | hba
      · rw [if_neg (by omega), if_neg hba.ne, if_neg (by omega)]
      · subst hba
        simp [ha]
      · obtain ⟨k, hk⟩ : ∃ k, b - a = k + 1 := ⟨b - a - 1, by omega⟩
        have hk' : b - (a + 1) = k := by omega
        have hne : b ≠ a := by omega
        have h1 : a + 1 ≤ b := hba
        have h2 : a ≤ b := hba.le
        simp [hk, hk', hne, h1, h2]
    · have h2 : ¬ (a ≤ b ∧ b < 256) := by omega
      simp [ha, h2]

/-! ### Operands -/

theorem regIndex_eq_some {b : Byte} {r : Reg} : regIndex b = some r ↔ b.toNat = r.index := by
  cases r <;> revert b <;> decide

theorem regIndex_eq_none {b : Byte} : regIndex b = none ↔ 4 ≤ b.toNat := by
  revert b; decide

theorem address_lt (b : Byte) : address b < 256 := b.isLt

@[simp] theorem jumpTarget_val (b : Byte) : (jumpTarget b).val = b.toNat := rfl

/-- All an instruction with one register operand can do. -/
theorem onReg_cases (b : Byte) (s : State) (effect : Reg → State) :
    (∃ r, regIndex b = some r ∧ onReg b s effect = .next (effect r)) ∨
      (regIndex b = none ∧ onReg b s effect = .next s.raiseHalt) := by
  unfold onReg
  cases h : regIndex b with
  | none => exact .inr ⟨rfl, rfl⟩
  | some r => exact .inl ⟨r, rfl, rfl⟩

/-- All an instruction with two register operands can do. -/
theorem onRegs_cases (b c : Byte) (s : State) (effect : Reg → Reg → State) :
    (∃ r q, regIndex b = some r ∧ regIndex c = some q ∧ onRegs b c s effect = .next (effect r q)) ∨
      ((regIndex b = none ∨ regIndex c = none) ∧ onRegs b c s effect = .next s.raiseHalt) := by
  unfold onRegs
  cases hb : regIndex b with
  | none => exact .inr ⟨.inl rfl, rfl⟩
  | some r =>
    cases hc : regIndex c with
    | none => exact .inr ⟨.inr rfl, rfl⟩
    | some q => exact .inl ⟨r, q, rfl, rfl, rfl⟩

theorem onReg_named {b : Byte} {r : Reg} (h : b.toNat = r.index) (s : State) (effect : Reg → State) :
    onReg b s effect = .next (effect r) := by
  simp [onReg, regIndex_eq_some.mpr h]

theorem onReg_bad {b : Byte} (h : 4 ≤ b.toNat) (s : State) (effect : Reg → State) :
    onReg b s effect = .next s.raiseHalt := by
  simp [onReg, regIndex_eq_none.mpr h]

theorem onRegs_named {b c : Byte} {r q : Reg} (hb : b.toNat = r.index) (hc : c.toNat = q.index) (s : State)
    (effect : Reg → Reg → State) : onRegs b c s effect = .next (effect r q) := by
  simp [onRegs, regIndex_eq_some.mpr hb, regIndex_eq_some.mpr hc]

theorem onRegs_bad {b c : Byte} (h : 4 ≤ b.toNat ∨ 4 ≤ c.toNat) (s : State) (effect : Reg → Reg → State) :
    onRegs b c s effect = .next s.raiseHalt := by
  rcases onRegs_cases b c s effect with ⟨r, q, hb, hc, -⟩ | ⟨-, h2⟩
  · simp only [← regIndex_eq_none, hb, hc, reduceCtorEq, or_self] at h
  · exact h2

theorem Reg.index_lt (r : Reg) : r.index < 4 := by
  cases r <;> decide

/-! ### The program counter and the ALU -/

theorem pcSucc_val {p : Pc} (h : p.val < 256) : (pcSucc p).val = p.val + 1 := by
  simp [pcSucc, h]

theorem aluAdd_toNat (u v : Byte) : (aluAdd u v).toNat = (u.toNat + v.toNat) % 256 := by
  simp [aluAdd]

theorem aluSub_toNat (u v : Byte) : ((aluSub u v).toNat : Int) = ((u.toNat : Int) - v.toNat) % 256 := by
  have h : (0 : Int) ≤ ((u.toNat : Int) - v.toNat) % 256 := Int.emod_nonneg _ (by decide)
  simp only [aluSub, BitVec.toNat_ofInt]
  omega

end Sys2Proof.Machine
end

