-- ==== Sys2Proof/Laws/Fetch.lean ====
section
/-! SUPPORT. What fetching does, said once: it moves the program counter, may clear running, and touches nothing else; and
how an instruction's bytes come in (`40_cycle.md` R80, R81, R85). -/
namespace Sys2Proof.Machine

/-! ### What fetching leaves alone -/

@[simp] theorem fetch_x (m : OpcodeMap) (s : State) : (fetch m s).2.x = s.x := by
  unfold fetch; split <;> rfl

@[simp] theorem fetch_flagEq (m : OpcodeMap) (s : State) : (fetch m s).2.flagEq = s.flagEq := by
  unfold fetch; split <;> rfl

@[simp] theorem fetch_flagNe (m : OpcodeMap) (s : State) : (fetch m s).2.flagNe = s.flagNe := by
  unfold fetch; split <;> rfl

@[simp] theorem fetch_mem (m : OpcodeMap) (s : State) : (fetch m s).2.mem = s.mem := by
  unfold fetch; split <;> rfl

@[simp] theorem fetchBytes_x (m : OpcodeMap) (n : Nat) (s : State) : (fetchBytes m n s).2.x = s.x := by
  induction n generalizing s with
  | zero => rfl
  | succ n ih => simp [fetchBytes, ih]

@[simp] theorem fetchBytes_flagEq (m : OpcodeMap) (n : Nat) (s : State) :
    (fetchBytes m n s).2.flagEq = s.flagEq := by
  induction n generalizing s with
  | zero => rfl
  | succ n ih => simp [fetchBytes, ih]

@[simp] theorem fetchBytes_flagNe (m : OpcodeMap) (n : Nat) (s : State) :
    (fetchBytes m n s).2.flagNe = s.flagNe := by
  induction n generalizing s with
  | zero => rfl
  | succ n ih => simp [fetchBytes, ih]

@[simp] theorem fetchBytes_mem (m : OpcodeMap) (n : Nat) (s : State) : (fetchBytes m n s).2.mem = s.mem := by
  induction n generalizing s with
  | zero => rfl
  | succ n ih => simp [fetchBytes, ih]

@[simp] theorem fetchInstr_x (m : OpcodeMap) (s : State) : (fetchInstr m s).2.x = s.x := by simp [fetchInstr]
@[simp] theorem fetchInstr_flagEq (m : OpcodeMap) (s : State) : (fetchInstr m s).2.flagEq = s.flagEq := by
  simp [fetchInstr]
@[simp] theorem fetchInstr_flagNe (m : OpcodeMap) (s : State) : (fetchInstr m s).2.flagNe = s.flagNe := by
  simp [fetchInstr]
@[simp] theorem fetchInstr_mem (m : OpcodeMap) (s : State) : (fetchInstr m s).2.mem = s.mem := by simp [fetchInstr]

/-- Fetching never sets running. -/
theorem fetchBytes_running {m : OpcodeMap} {n : Nat} {s : State} (h : (fetchBytes m n s).2.running = true) :
    s.running = true := by
  induction n generalizing s with
  | zero => exact h
  | succ n ih =>
    have h' := ih (s := (fetch m s).2) (by simpa [fetchBytes] using h)
    unfold fetch at h'
    split at h'
    · simpa using h'
    · simp at h'

/-! ### Which bytes come in -/

theorem fetchBytes_length (m : OpcodeMap) (n : Nat) (s : State) : (fetchBytes m n s).1.length = n := by
  induction n generalizing s with
  | zero => rfl
  | succ n ih => simp [fetchBytes, ih]

/-- A fetch below the end of memory. -/
theorem fetch_of_lt {m : OpcodeMap} {s : State} (h : s.pc.val < 256) :
    fetch m s = (s.mem.read s.pc.val, s.setPc (pcSucc s.pc)) := by
  simp [fetch, h]

/-- A fetch at the end of memory. -/
theorem fetch_of_end {m : OpcodeMap} {s : State} (h : ¬ s.pc.val < 256) : fetch m s = (m .halt, s.raiseHalt) := by
  simp [fetch, h]

/-- The one operand byte of an instruction at 254 or below: the byte after the opcode. -/
theorem operand_inside (m : OpcodeMap) {s : State} (h : s.pc.val ≤ 254) :
    fetchBytes m 1 (s.setPc (pcSucc s.pc)) = ([s.mem.read (s.pc.val + 1)], s.setPc ⟨s.pc.val + 2, by omega⟩) := by
  have h1 : (pcSucc s.pc).val = s.pc.val + 1 := pcSucc_val (by omega)
  have e2 : pcSucc (pcSucc s.pc) = ⟨s.pc.val + 2, by omega⟩ := Fin.ext (by rw [pcSucc_val (by omega), h1])
  simp only [fetchBytes]
  rw [fetch_of_lt (by simp; omega)]
  simp [h1, e2, State.setPc]

/-- The one operand byte of an instruction at 255: HALT's opcode, with the core Halted and pc at 256 (R85). -/
theorem operand_at_255 (m : OpcodeMap) {s : State} (h : s.pc.val = 255) :
    fetchBytes m 1 (s.setPc (pcSucc s.pc)) = ([m .halt], (s.setPc 256).raiseHalt) := by
  have h1 : (pcSucc s.pc).val = 256 := by rw [pcSucc_val (by omega), h]
  have e1 : pcSucc s.pc = 256 := Fin.ext h1
  simp only [fetchBytes]
  rw [fetch_of_end (by simp; omega)]
  simp [e1]

/-- The two operand bytes of an instruction at 253 or below: the two bytes after the opcode. -/
theorem operands_inside (m : OpcodeMap) {s : State} (h : s.pc.val ≤ 253) :
    fetchBytes m 2 (s.setPc (pcSucc s.pc)) =
      ([s.mem.read (s.pc.val + 1), s.mem.read (s.pc.val + 2)], s.setPc ⟨s.pc.val + 3, by omega⟩) := by
  have h1 : (pcSucc s.pc).val = s.pc.val + 1 := pcSucc_val (by omega)
  have h2 : (pcSucc (pcSucc s.pc)).val = s.pc.val + 2 := by rw [pcSucc_val (by omega), h1]
  have e3 : pcSucc (pcSucc (pcSucc s.pc)) = ⟨s.pc.val + 3, by omega⟩ :=
    Fin.ext (by rw [pcSucc_val (by omega), h2])
  simp only [fetchBytes]
  rw [fetch_of_lt (s := s.setPc (pcSucc s.pc)) (by simp; omega)]
  rw [fetch_of_lt (by simp; omega)]
  simp [h1, h2, e3, State.setPc]

/-- The two operand bytes of an instruction at 254: the byte at 255 and HALT's opcode (R85). -/
theorem operands_at_254 (m : OpcodeMap) {s : State} (h : s.pc.val = 254) :
    fetchBytes m 2 (s.setPc (pcSucc s.pc)) = ([s.mem.read 255, m .halt], (s.setPc 256).raiseHalt) := by
  have h1 : (pcSucc s.pc).val = 255 := by rw [pcSucc_val (by omega), h]
  have h2 : (pcSucc (pcSucc s.pc)).val = 256 := by rw [pcSucc_val (by omega), h1]
  have e2 : pcSucc (pcSucc s.pc) = 256 := Fin.ext h2
  simp only [fetchBytes]
  rw [fetch_of_lt (s := s.setPc (pcSucc s.pc)) (by simp; omega)]
  rw [fetch_of_end (by simp; omega)]
  simp [h1, e2, State.setPc]

/-- The two operand bytes of an instruction at 255: HALT's opcode twice (R85). -/
theorem operands_at_255 (m : OpcodeMap) {s : State} (h : s.pc.val = 255) :
    fetchBytes m 2 (s.setPc (pcSucc s.pc)) = ([m .halt, m .halt], (s.setPc 256).raiseHalt) := by
  have h1 : (pcSucc s.pc).val = 256 := by rw [pcSucc_val (by omega), h]
  have e1 : pcSucc s.pc = 256 := Fin.ext h1
  simp only [fetchBytes]
  rw [fetch_of_end (s := s.setPc (pcSucc s.pc)) (by simp; omega)]
  rw [fetch_of_end (by simp; omega)]
  simp [e1, State.raiseHalt]

/-- Two states that agree in every field are equal. -/
theorem State.ext_fields {s t : State} (hx : t.x = s.x) (hp : t.pc = s.pc) (he : t.flagEq = s.flagEq)
    (hn : t.flagNe = s.flagNe) (hr : t.running = s.running) (hm : t.mem = s.mem) : t = s := by
  cases s; cases t; simp_all

/-- Fetching an instruction of a known opcode: the instruction is the one with the bytes fetched. -/
theorem fetchInstr_known {m : OpcodeMap} {s : State} {k : Mnemonic} (h : decodeOpcode m (fetch m s).1 = some k) :
    ∃ i : Instr, i.mnemonic = k ∧
      i.operandBytes = (fetchBytes m k.format.operandCount (fetch m s).2).1 ∧
      fetchInstr m s = (.ok i, (fetchBytes m k.format.operandCount (fetch m s).2).2) := by
  obtain ⟨i, h1, h2, h3⟩ := takeOperands_of_length
    (fetchBytes_length m k.format.operandCount (fetch m s).2)
  refine ⟨i, h1, h2, ?_⟩
  have hc : operandCountOf m (fetch m s).1 = k.format.operandCount := by simp [operandCountOf, h]
  simp only [fetchInstr, hc, decode, h, h3]
  rfl

/-- Fetching an instruction whose opcode byte is in memory at pc. -/
theorem fetchInstr_at {m : OpcodeMap} (hm : Function.Injective m) {s : State} (hp : s.pc.val < 256) {k : Mnemonic}
    (h : s.mem.read s.pc.val = m k) :
    ∃ i : Instr, i.mnemonic = k ∧
      i.operandBytes = (fetchBytes m k.format.operandCount (s.setPc (pcSucc s.pc))).1 ∧
      fetchInstr m s = (.ok i, (fetchBytes m k.format.operandCount (s.setPc (pcSucc s.pc))).2) := by
  have := fetchInstr_known (m := m) (s := s) (k := k) (by rw [fetch_of_lt hp]; simp [h, decodeOpcode_self hm])
  rwa [fetch_of_lt hp] at this

/-- Fetching an unknown opcode: no operand is fetched, and the decoder names the byte. -/
theorem fetchInstr_unknown {m : OpcodeMap} {s : State} (h : decodeOpcode m (fetch m s).1 = none) :
    fetchInstr m s = (.error (.unknownOpcode (fetch m s).1), (fetch m s).2) := by
  have hc : operandCountOf m (fetch m s).1 = 0 := by simp [operandCountOf, h]
  simp only [fetchInstr, hc, fetchBytes, decode, h]
  rfl

/-- All that fetching an instruction can do: it answers an instruction, or the opcode is unknown; the core never meets
the decoder's other errors. -/
theorem fetchInstr_cases (m : OpcodeMap) (s : State) :
    (∃ i : Instr, (fetchInstr m s).1 = .ok i ∧ m i.mnemonic = (fetch m s).1) ∨
      ((fetchInstr m s).1 = .error (.unknownOpcode (fetch m s).1) ∧ ∀ k, m k ≠ (fetch m s).1) := by
  cases h : decodeOpcode m (fetch m s).1 with
  | none => exact .inr ⟨by rw [fetchInstr_unknown h], decodeOpcode_none.mp h⟩
  | some k =>
    obtain ⟨i, h1, -, h3⟩ := fetchInstr_known h
    exact .inl ⟨i, by rw [h3], by rw [h1]; exact decodeOpcode_some h⟩

end Sys2Proof.Machine
end

