-- ==== Sys2Proof/Laws/Exec.lean ====
section
/-! SUPPORT. What each meaning and one cycle can do, said once: an inversion lemma for each instruction with operands to
check, and one for the cycle. -/
namespace Sys2Proof.Machine

theorem execLoad_cases {reg addr : Byte} {s t : State} (h : exec (.load reg addr) s = .next t) :
    (∃ r, regIndex reg = some r ∧ t = s.regWrite r (s.mem.read (address addr))) ∨
      (regIndex reg = none ∧ t = s.raiseHalt) := by
  obtain ⟨r, h1, h2⟩ | ⟨h1, h2⟩ := onReg_cases reg s fun r => s.regWrite r (s.memRead (address addr))
  · exact .inl ⟨r, h1, by simpa using (Host.Outcome.next.inj (h2.symm.trans h)).symm⟩
  · exact .inr ⟨h1, (Host.Outcome.next.inj (h2.symm.trans h)).symm⟩

theorem execStore_cases {reg addr : Byte} {s t : State} (h : exec (.store reg addr) s = .next t) :
    (∃ r, regIndex reg = some r ∧ t = s.memWrite (address addr) (s.x.read r)) ∨
      (regIndex reg = none ∧ t = s.raiseHalt) := by
  obtain ⟨r, h1, h2⟩ | ⟨h1, h2⟩ := onReg_cases reg s fun r => s.memWrite (address addr) (s.regRead r)
  · exact .inl ⟨r, h1, by simpa using (Host.Outcome.next.inj (h2.symm.trans h)).symm⟩
  · exact .inr ⟨h1, (Host.Outcome.next.inj (h2.symm.trans h)).symm⟩

theorem execAdd_cases {b c : Byte} {s t : State} (h : exec (.add b c) s = .next t) :
    (∃ r q, regIndex b = some r ∧ regIndex c = some q ∧ t = s.regWrite r (aluAdd (s.x.read r) (s.x.read q))) ∨
      ((regIndex b = none ∨ regIndex c = none) ∧ t = s.raiseHalt) := by
  obtain ⟨r, q, h1, h2, h3⟩ | ⟨h1, h2⟩ :=
    onRegs_cases b c s fun r q => s.regWrite r (aluAdd (s.regRead r) (s.regRead q))
  · exact .inl ⟨r, q, h1, h2, by simpa using (Host.Outcome.next.inj (h3.symm.trans h)).symm⟩
  · exact .inr ⟨h1, (Host.Outcome.next.inj (h2.symm.trans h)).symm⟩

theorem execSub_cases {b c : Byte} {s t : State} (h : exec (.sub b c) s = .next t) :
    (∃ r q, regIndex b = some r ∧ regIndex c = some q ∧ t = s.regWrite r (aluSub (s.x.read r) (s.x.read q))) ∨
      ((regIndex b = none ∨ regIndex c = none) ∧ t = s.raiseHalt) := by
  obtain ⟨r, q, h1, h2, h3⟩ | ⟨h1, h2⟩ :=
    onRegs_cases b c s fun r q => s.regWrite r (aluSub (s.regRead r) (s.regRead q))
  · exact .inl ⟨r, q, h1, h2, by simpa using (Host.Outcome.next.inj (h3.symm.trans h)).symm⟩
  · exact .inr ⟨h1, (Host.Outcome.next.inj (h2.symm.trans h)).symm⟩

theorem execCmp_cases {b c : Byte} {s t : State} (h : exec (.cmp b c) s = .next t) :
    (∃ r q, regIndex b = some r ∧ regIndex c = some q ∧ t = s.compare (s.x.read r) (s.x.read q)) ∨
      ((regIndex b = none ∨ regIndex c = none) ∧ t = s.raiseHalt) := by
  obtain ⟨r, q, h1, h2, h3⟩ | ⟨h1, h2⟩ := onRegs_cases b c s fun r q => s.compare (s.regRead r) (s.regRead q)
  · exact .inl ⟨r, q, h1, h2, by simpa using (Host.Outcome.next.inj (h3.symm.trans h)).symm⟩
  · exact .inr ⟨h1, (Host.Outcome.next.inj (h2.symm.trans h)).symm⟩

theorem execJump_eq {addr : Byte} {s t : State} (h : exec (.jump addr) s = .next t) : t = s.setPc (jumpTarget addr) :=
  (Host.Outcome.next.inj h).symm

theorem execJeq_cases {addr : Byte} {s t : State} (h : exec (.jeq addr) s = .next t) :
    (s.flagEq = true ∧ t = s.setPc (jumpTarget addr)) ∨ (s.flagEq = false ∧ t = s) := by
  have h := (Host.Outcome.next.inj h).symm
  cases hf : s.flagEq with
  | true => exact .inl ⟨rfl, by simpa [hf] using h⟩
  | false => exact .inr ⟨rfl, by simpa [hf] using h⟩

theorem execJne_cases {addr : Byte} {s t : State} (h : exec (.jne addr) s = .next t) :
    (s.flagNe = true ∧ t = s.setPc (jumpTarget addr)) ∨ (s.flagNe = false ∧ t = s) := by
  have h := (Host.Outcome.next.inj h).symm
  cases hf : s.flagNe with
  | true => exact .inl ⟨rfl, by simpa [hf] using h⟩
  | false => exact .inr ⟨rfl, by simpa [hf] using h⟩

theorem execNop_eq {s t : State} (h : exec .nop s = .next t) : t = s := (Host.Outcome.next.inj h).symm

theorem execHalt_eq {s t : State} (h : exec .halt s = .next t) : t = s.raiseHalt := (Host.Outcome.next.inj h).symm

/-! ### What every instruction does to one part of the state -/

/-- Every instruction answers a next state in every state. -/
theorem exec_answers (i : Instr) (s : State) : ∃ t, exec i s = .next t := by
  cases i
  case load b c =>
    rcases onReg_cases b s (fun r => s.regWrite r (s.memRead (address c))) with ⟨_, _, h⟩ | ⟨_, h⟩ <;> exact ⟨_, h⟩
  case store b c =>
    rcases onReg_cases b s (fun r => s.memWrite (address c) (s.regRead r)) with ⟨_, _, h⟩ | ⟨_, h⟩ <;> exact ⟨_, h⟩
  case add b c =>
    rcases onRegs_cases b c s (fun r q => s.regWrite r (aluAdd (s.regRead r) (s.regRead q)))
      with ⟨_, _, _, _, h⟩ | ⟨_, h⟩ <;> exact ⟨_, h⟩
  case sub b c =>
    rcases onRegs_cases b c s (fun r q => s.regWrite r (aluSub (s.regRead r) (s.regRead q)))
      with ⟨_, _, _, _, h⟩ | ⟨_, h⟩ <;> exact ⟨_, h⟩
  case cmp b c =>
    rcases onRegs_cases b c s (fun r q => s.compare (s.regRead r) (s.regRead q))
      with ⟨_, _, _, _, h⟩ | ⟨_, h⟩ <;> exact ⟨_, h⟩
  all_goals exact ⟨_, rfl⟩

/-- An instruction other than CMP keeps both flags (R15). -/
theorem exec_flags {i : Instr} {s t : State} (h : exec i s = .next t) (hi : ∀ b c, i ≠ .cmp b c) :
    t.flagEq = s.flagEq ∧ t.flagNe = s.flagNe := by
  cases i
  case load => rcases execLoad_cases h with ⟨_, _, rfl⟩ | ⟨_, rfl⟩ <;> exact ⟨rfl, rfl⟩
  case store => rcases execStore_cases h with ⟨_, _, rfl⟩ | ⟨_, rfl⟩ <;> exact ⟨rfl, rfl⟩
  case add => rcases execAdd_cases h with ⟨_, _, _, _, rfl⟩ | ⟨_, rfl⟩ <;> exact ⟨rfl, rfl⟩
  case sub => rcases execSub_cases h with ⟨_, _, _, _, rfl⟩ | ⟨_, rfl⟩ <;> exact ⟨rfl, rfl⟩
  case cmp => exact absurd rfl (hi _ _)
  case jump => rw [execJump_eq h]; exact ⟨rfl, rfl⟩
  case jeq => rcases execJeq_cases h with ⟨_, rfl⟩ | ⟨_, rfl⟩ <;> exact ⟨rfl, rfl⟩
  case jne => rcases execJne_cases h with ⟨_, rfl⟩ | ⟨_, rfl⟩ <;> exact ⟨rfl, rfl⟩
  case nop => rw [execNop_eq h]; exact ⟨rfl, rfl⟩
  case halt => rw [execHalt_eq h]; exact ⟨rfl, rfl⟩

/-- An instruction other than LOAD, ADD and SUB keeps every register (R11). -/
theorem exec_registers {i : Instr} {s t : State} (h : exec i s = .next t)
    (hi : i.mnemonic ≠ .load ∧ i.mnemonic ≠ .add ∧ i.mnemonic ≠ .sub) : t.x = s.x := by
  cases i
  case store => rcases execStore_cases h with ⟨_, _, rfl⟩ | ⟨_, rfl⟩ <;> rfl
  case cmp => rcases execCmp_cases h with ⟨_, _, _, _, rfl⟩ | ⟨_, rfl⟩ <;> rfl
  case jump => rw [execJump_eq h]; rfl
  case jeq => rcases execJeq_cases h with ⟨_, rfl⟩ | ⟨_, rfl⟩ <;> rfl
  case jne => rcases execJne_cases h with ⟨_, rfl⟩ | ⟨_, rfl⟩ <;> rfl
  case nop => rw [execNop_eq h]
  case halt => rw [execHalt_eq h]; rfl
  all_goals simp [Instr.mnemonic] at hi

/-- An instruction other than STORE keeps memory (R30). -/
theorem exec_memory {i : Instr} {s t : State} (h : exec i s = .next t) (hi : i.mnemonic ≠ .store) : t.mem = s.mem := by
  cases i
  case load => rcases execLoad_cases h with ⟨_, _, rfl⟩ | ⟨_, rfl⟩ <;> rfl
  case store => simp [Instr.mnemonic] at hi
  case add => rcases execAdd_cases h with ⟨_, _, _, _, rfl⟩ | ⟨_, rfl⟩ <;> rfl
  case sub => rcases execSub_cases h with ⟨_, _, _, _, rfl⟩ | ⟨_, rfl⟩ <;> rfl
  case cmp => rcases execCmp_cases h with ⟨_, _, _, _, rfl⟩ | ⟨_, rfl⟩ <;> rfl
  case jump => rw [execJump_eq h]; rfl
  case jeq => rcases execJeq_cases h with ⟨_, rfl⟩ | ⟨_, rfl⟩ <;> rfl
  case jne => rcases execJne_cases h with ⟨_, rfl⟩ | ⟨_, rfl⟩ <;> rfl
  case nop => rw [execNop_eq h]
  case halt => rw [execHalt_eq h]; rfl

/-- A byte that names a register is below 4. -/
theorem Reg.below {b : Byte} {r : Reg} (h : b.toNat = r.index) : b.toNat < 4 := h ▸ r.index_lt

/-- An instruction clears running exactly when it raises an event, and never sets it (R17). -/
theorem exec_running {i : Instr} {s t : State} (h : exec i s = .next t) :
    t.running = (s.running && (instrEvent i).isNone) := by
  cases i
  case load b c =>
    rcases execLoad_cases h with ⟨_, hr, rfl⟩ | ⟨hr, rfl⟩
    · simp [instrEvent, Instr.wellFormed, Instr.registerOperands, Reg.below (regIndex_eq_some.mp hr)]
    · simp [instrEvent, Instr.wellFormed, Instr.registerOperands, regIndex_eq_none.mp hr]
  case store b c =>
    rcases execStore_cases h with ⟨_, hr, rfl⟩ | ⟨hr, rfl⟩
    · simp [instrEvent, Instr.wellFormed, Instr.registerOperands, Reg.below (regIndex_eq_some.mp hr)]
    · simp [instrEvent, Instr.wellFormed, Instr.registerOperands, regIndex_eq_none.mp hr]
  case add b c =>
    rcases execAdd_cases h with ⟨_, _, hr, hq, rfl⟩ | ⟨hr, rfl⟩
    · have h1 := Reg.below (regIndex_eq_some.mp hr)
      have h2 := Reg.below (regIndex_eq_some.mp hq)
      simp [instrEvent, Instr.wellFormed, Instr.registerOperands, h1, h2]
    · simp only [regIndex_eq_none] at hr
      have : ¬ (BitVec.toNat b < 4 ∧ BitVec.toNat c < 4) := by omega
      simp [instrEvent, Instr.wellFormed, Instr.registerOperands, this]
  case sub b c =>
    rcases execSub_cases h with ⟨_, _, hr, hq, rfl⟩ | ⟨hr, rfl⟩
    · have h1 := Reg.below (regIndex_eq_some.mp hr)
      have h2 := Reg.below (regIndex_eq_some.mp hq)
      simp [instrEvent, Instr.wellFormed, Instr.registerOperands, h1, h2]
    · simp only [regIndex_eq_none] at hr
      have : ¬ (BitVec.toNat b < 4 ∧ BitVec.toNat c < 4) := by omega
      simp [instrEvent, Instr.wellFormed, Instr.registerOperands, this]
  case cmp b c =>
    rcases execCmp_cases h with ⟨_, _, hr, hq, rfl⟩ | ⟨hr, rfl⟩
    · have h1 := Reg.below (regIndex_eq_some.mp hr)
      have h2 := Reg.below (regIndex_eq_some.mp hq)
      simp [instrEvent, Instr.wellFormed, Instr.registerOperands, h1, h2]
    · simp only [regIndex_eq_none] at hr
      have : ¬ (BitVec.toNat b < 4 ∧ BitVec.toNat c < 4) := by omega
      simp [instrEvent, Instr.wellFormed, Instr.registerOperands, this]
  case jump => rw [execJump_eq h]; simp [instrEvent, Instr.wellFormed, Instr.registerOperands]
  case jeq =>
    rcases execJeq_cases h with ⟨_, rfl⟩ | ⟨_, rfl⟩ <;>
      simp [instrEvent, Instr.wellFormed, Instr.registerOperands]
  case jne =>
    rcases execJne_cases h with ⟨_, rfl⟩ | ⟨_, rfl⟩ <;>
      simp [instrEvent, Instr.wellFormed, Instr.registerOperands]
  case nop => rw [execNop_eq h]; simp [instrEvent, Instr.wellFormed, Instr.registerOperands]
  case halt => rw [execHalt_eq h]; simp [instrEvent, Instr.wellFormed, Instr.registerOperands]

/-! ### The cycle and the step -/

/-- All one cycle can do: execute the instruction fetched, or halt on an unknown opcode. -/
theorem cycle_cases (m : OpcodeMap) (s : State) :
    (∃ i : Instr, (fetchInstr m s).1 = .ok i ∧ m i.mnemonic = (fetch m s).1 ∧
      cycle m s = exec i (fetchInstr m s).2) ∨
      ((∀ k, m k ≠ (fetch m s).1) ∧ fetchInstr m s = (.error (.unknownOpcode (fetch m s).1), (fetch m s).2) ∧
        cycle m s = .next (fetch m s).2.raiseHalt) := by
  obtain ⟨i, h1, h2⟩ | ⟨h1, h2⟩ := fetchInstr_cases m s
  · refine .inl ⟨i, h1, h2, ?_⟩
    unfold cycle
    split
    · next j s' h => rw [h] at h1; cases h1; rw [h]
    · next e s' h => rw [h] at h1; cases h1
  · have h3 := fetchInstr_unknown (decodeOpcode_none.mpr h2)
    refine .inr ⟨h2, h3, ?_⟩
    unfold cycle
    rw [h3]
    rfl

/-- A cycle whose fetch brought an instruction executes it. -/
theorem cycle_of_fetch {m : OpcodeMap} {s s' : State} {i : Instr} (h : fetchInstr m s = (.ok i, s')) :
    cycle m s = exec i s' := by
  simp [cycle, h]

/-! ### The outcome of a cycle -/

/-- A cycle in which a fetch went out of bounds reports FETCH_OOB (R148). -/
theorem cycleOutcome_oob {m : OpcodeMap} {s : State} (h : (fetchInstr m s).2.running = false) :
    cycleOutcome m s = .errorHalt .fetchOob := by
  simp [cycleOutcome, h]

/-- A cycle with a well-formed instruction other than HALT, all its bytes in memory, continues. -/
theorem cycleOutcome_continues {m : OpcodeMap} {s s' : State} {i : Instr} (h : fetchInstr m s = (.ok i, s'))
    (hr : s'.running = true) (hw : i.wellFormed = true) (hi : i ≠ .halt) : cycleOutcome m s = .continues := by
  simp [cycleOutcome, eventOutcome, h, hr, instrEvent, hw, hi]

/-- A cycle with an ill-formed instruction, all its bytes in memory, reports BAD_REGISTER (R143). -/
theorem cycleOutcome_badRegister {m : OpcodeMap} {s s' : State} {i : Instr} (h : fetchInstr m s = (.ok i, s'))
    (hr : s'.running = true) (hw : i.wellFormed = false) : cycleOutcome m s = .errorHalt .badRegister := by
  simp [cycleOutcome, eventOutcome, h, hr, instrEvent, hw]

/-- All one step can do: a cycle of a Running core, and nothing of a Halted one. -/
theorem stepWith_cases {m : OpcodeMap} {s t : State} (h : stepWith m s = .next t) :
    (s.running = true ∧ cycle m s = .next t) ∨ (s.running = false ∧ t = s) := by
  unfold stepWith at h
  cases hr : s.running with
  | true => exact .inl ⟨rfl, by simpa [hr] using h⟩
  | false => exact .inr ⟨rfl, by simpa [hr] using h.symm⟩

end Sys2Proof.Machine
end

