-- ==== Sys2Proof/Laws/Memory.lean ====
section
/-! SUPPORT. The bytes of memory from a cell on, as a list: its head and its length. -/
namespace Sys2Proof.Machine

theorem State.memoryFrom_cons (s : State) {a : Nat} (h : a < 256) :
    s.memoryFrom a = s.mem.read a :: s.memoryFrom (a + 1) := by
  obtain ⟨n, hn⟩ : ∃ n, 256 - a = n + 1 := ⟨255 - a, by omega⟩
  simp only [State.memoryFrom]
  rw [hn, show 256 - (a + 1) = n by omega, List.range_succ_eq_map]
  simp [Function.comp_def, Nat.add_assoc, Nat.add_comm 1]

theorem State.memoryFrom_length (s : State) (a : Nat) : (s.memoryFrom a).length = 256 - a := by
  simp [State.memoryFrom]

theorem State.memoryFrom_end (s : State) {a : Nat} (h : 256 ≤ a) : s.memoryFrom a = [] := by
  apply List.eq_nil_of_length_eq_zero
  rw [State.memoryFrom_length]
  omega

end Sys2Proof.Machine
end

