-- ==== Sys2Proof/Laws/PerInstr.lean ====
section
/-! SUPPORT. The statements made instruction by instruction, one lemma for each constructor.

Family `EncodedForm` (`30_encoding.md` R50 to R52): an instruction's bytes are its opcode followed by one byte for each
operand of its format, one to three in all, and its register operands are among its operand bytes. -/
namespace Sys2Proof.Laws

/-- The encoded form of an instruction under every opcode map. -/
def EncodedForm.Statement (i : Instr) : Prop :=
  ∀ m : OpcodeMap, (encode m i).head? = some (m i.mnemonic) ∧
    (encode m i).length = 1 + i.mnemonic.format.operandCount ∧ (encode m i).length ≤ 3 ∧
    ∀ b ∈ i.registerOperands, b ∈ (encode m i).tail

theorem EncodedForm.nop : EncodedForm.Statement .nop :=
  fun _ => ⟨rfl, rfl, by simp [encode, Instr.operandBytes], by simp [Instr.registerOperands]⟩

theorem EncodedForm.load (reg addr : Byte) : EncodedForm.Statement (.load reg addr) :=
  fun _ => ⟨rfl, rfl, le_refl 3, by simp [Instr.registerOperands, encode, Instr.operandBytes]⟩

theorem EncodedForm.store (reg addr : Byte) : EncodedForm.Statement (.store reg addr) :=
  fun _ => ⟨rfl, rfl, le_refl 3, by simp [Instr.registerOperands, encode, Instr.operandBytes]⟩

theorem EncodedForm.add (reg1 reg2 : Byte) : EncodedForm.Statement (.add reg1 reg2) :=
  fun _ => ⟨rfl, rfl, le_refl 3, by simp [Instr.registerOperands, encode, Instr.operandBytes]⟩

theorem EncodedForm.sub (reg1 reg2 : Byte) : EncodedForm.Statement (.sub reg1 reg2) :=
  fun _ => ⟨rfl, rfl, le_refl 3, by simp [Instr.registerOperands, encode, Instr.operandBytes]⟩

theorem EncodedForm.jump (addr : Byte) : EncodedForm.Statement (.jump addr) :=
  fun _ => ⟨rfl, rfl, by simp [encode, Instr.operandBytes], by simp [Instr.registerOperands]⟩

theorem EncodedForm.cmp (reg1 reg2 : Byte) : EncodedForm.Statement (.cmp reg1 reg2) :=
  fun _ => ⟨rfl, rfl, le_refl 3, by simp [Instr.registerOperands, encode, Instr.operandBytes]⟩

theorem EncodedForm.jeq (addr : Byte) : EncodedForm.Statement (.jeq addr) :=
  fun _ => ⟨rfl, rfl, by simp [encode, Instr.operandBytes], by simp [Instr.registerOperands]⟩

theorem EncodedForm.jne (addr : Byte) : EncodedForm.Statement (.jne addr) :=
  fun _ => ⟨rfl, rfl, by simp [encode, Instr.operandBytes], by simp [Instr.registerOperands]⟩

theorem EncodedForm.halt : EncodedForm.Statement .halt :=
  fun _ => ⟨rfl, rfl, by simp [encode, Instr.operandBytes], by simp [Instr.registerOperands]⟩

end Sys2Proof.Laws
end

