-- ==== Sys2Proof/Tests/Slice0.lean ====
section
/-! SUPPORT. Tests of the model against words and vectors written in the spec, and for every obligation with hypotheses a
witness of each of its clauses. Expected results are the spec's (`95_test_vectors.md`, the rules' examples), not the model's. -/
namespace Sys2Proof.Tests

open Sys2Proof Sys2Proof.Machine

/-- The next state of an outcome, if it is one. -/
def nextOf : Host.Outcome State Fault Refusal → Option State
  | .next t => some t
  | .fault _ => none
  | .refused _ => none

/-- The reset state with `pc` at `p` and bytes stored from there. -/
def core (p : Pc) (bytes : List Byte) : State :=
  { State.reset with pc := p, mem := Memory.writeBytes [] p.val bytes }

/-- A state with these registers. -/
def withRegs (s : State) (a b c d : Byte) : State := { s with x := { r0 := a, r1 := b, r2 := c, r3 := d } }

/-- A state with these flags. -/
def withFlags (s : State) (eq ne : Bool) : State := { s with flagEq := eq, flagNe := ne }

/-- The Halted core of a state. -/
def halted (s : State) : State := { s with running := false }

/-- Registers, pc, EQ, NE and running after one step. -/
def view (s : State) : Option (RegFile × Nat × Bool × Bool × Bool) :=
  (nextOf (step s)).map fun t => (t.x, t.pc.val, t.flagEq, t.flagNe, t.running)

/-! ### Well-formedness: one ill-formed term for each check -/

theorem test_wf_load : (Instr.load 3 255).wellFormed = true ∧ (Instr.load 4 0).wellFormed = false := by decide
theorem test_wf_store : (Instr.store 3 255).wellFormed = true ∧ (Instr.store 255 0).wellFormed = false := by decide
theorem test_wf_add : (Instr.add 0 4).wellFormed = false ∧ (Instr.add 4 0).wellFormed = false := by decide
theorem test_wf_sub : (Instr.sub 3 128).wellFormed = false ∧ (Instr.sub 128 3).wellFormed = false := by decide
theorem test_wf_cmp : (Instr.cmp 0 9).wellFormed = false ∧ (Instr.cmp 9 0).wellFormed = false := by decide

/-! ### Decoding: one word for each constructor, from the byte patterns of R51 and the opcode table of R56 -/

theorem test_decode_nop : decode defaultOpcodeMap [0b00000000#8, 0x77] = .ok (.nop, [0x77]) := by decide
theorem test_decode_load : decode defaultOpcodeMap [0b00000001#8, 0b00000011#8, 0b11111111#8] = .ok (.load 3 255, []) := by
  decide
theorem test_decode_store : decode defaultOpcodeMap [0b00000010#8, 0b00000010#8, 0b11110000#8] = .ok (.store 2 0xF0, []) := by
  decide
theorem test_decode_add : decode defaultOpcodeMap [0b00000011#8, 0b00000011#8, 0b00000010#8] = .ok (.add 3 2, []) := by
  decide
theorem test_decode_sub : decode defaultOpcodeMap [0b00000100#8, 0b00000000#8, 0b00000001#8] = .ok (.sub 0 1, []) := by
  decide
theorem test_decode_jump : decode defaultOpcodeMap [0b00000101#8, 0b00000010#8] = .ok (.jump 2, []) := by decide
theorem test_decode_cmp : decode defaultOpcodeMap [0b00000111#8, 0b00000001#8, 0b00000000#8] = .ok (.cmp 1 0, []) := by
  decide
theorem test_decode_jeq : decode defaultOpcodeMap [0b00001000#8, 0b00001101#8] = .ok (.jeq 13, []) := by decide
theorem test_decode_jne : decode defaultOpcodeMap [0b00001001#8, 0b00001001#8] = .ok (.jne 9, []) := by decide
theorem test_decode_halt : decode defaultOpcodeMap [0b11111111#8] = .ok (.halt, []) := by decide

/-- The bytes on both sides of the map's holes are unknown (R57), and a bad register byte still decodes (R54). -/
theorem test_decode_unknown :
    decode defaultOpcodeMap [0x06, 0x55, 0x55] = .error (.unknownOpcode 0x06) ∧
    decode defaultOpcodeMap [0x0A] = .error (.unknownOpcode 0x0A) ∧
    decode defaultOpcodeMap [0xFE] = .error (.unknownOpcode 0xFE) ∧
    decode defaultOpcodeMap [0x03, 0x00, 0x05] = .ok (.add 0 5, []) := by decide

/-- Table words: the first byte is the low one. -/
theorem test_table_words :
    decodeTableWord 24 0x050001 = some (.load 0 5) ∧ decodeTableWord 16 0x0D08 = some (.jeq 13) ∧
    decodeTableWord 8 0xFF = some .halt ∧ decodeTableWord 8 0x01 = some (.load 0 0) ∧ decodeTableWord 8 0x06 = none := by
  decide

/-- A table word placed after reset is fetched and run by the next step. -/
theorem test_withFetchWord :
    nextOf (step (State.reset.withFetchWord 24 0x020001)) =
      some { State.reset.withFetchWord 24 0x020001 with pc := 3, x := { r0 := 2, r1 := 0, r2 := 0, r3 := 0 } } ∧
    nextOf (step (State.reset.withFetchWord 8 0xFF)) =
      some { State.reset.withFetchWord 8 0xFF with pc := 1, running := false } := by decide

/-! ### One step of each instruction -/

/-- R130's example: byte 00 at address 6. -/
theorem test_nop : nextOf (step (core 6 [0x00])) = some { core 6 [0x00] with pc := 7 } := by decide
/-- 2.6 row 1, cycle 2: NOP at 255 leaves pc 256 and the core Running. -/
theorem test_nop_top : view (core 255 [0x00]) = some (⟨0, 0, 0, 0⟩, 256, false, false, true) := by decide

/-- 2.1 row 3: LOAD R2, 0 at 0 loads its own opcode byte. -/
theorem test_load : view (core 0 [0x01, 0x02, 0x00]) = some (⟨0, 0, 1, 0⟩, 3, false, false, true) := by decide
/-- 2.6 row 10: LOAD R1 at 254 completes with address 0xFF. -/
theorem test_load_top : view (core 254 [0x01, 0x01]) = some (⟨0, 1, 0, 0⟩, 256, false, false, false) := by decide

/-- R101's example: x[2] = 7, STORE R2, 0xF0 at 10. -/
theorem test_store :
    (nextOf (step (withRegs (core 10 [0x02, 0x02, 0xF0]) 0 0 7 0))).map (fun t => (t.mem.read 0xF0, t.pc.val, t.x.r2)) =
      some (7, 13, 7) := by decide
/-- 2.6 row 11: STORE R2 at 254 overwrites its register byte at 255. -/
theorem test_store_top :
    (nextOf (step (withRegs (core 254 [0x02, 0x02]) 0 0 1 0))).map (fun t => (t.mem.read 255, t.pc.val, t.running)) =
      some (1, 256, false) := by decide

/-- 2.2: the largest sum, and no flag. -/
theorem test_add : view (withRegs (core 0 [0x03, 0x00, 0x01]) 255 255 0 0) =
    some (⟨254, 255, 0, 0⟩, 3, false, false, true) := by decide
/-- 2.2: doubling; both reads come before the write. -/
theorem test_add_same : view (withRegs (core 0 [0x03, 0x00, 0x00]) 0x80 0 0 0) =
    some (⟨0, 0, 0, 0⟩, 3, false, false, true) := by decide

/-- S7, with the flags kept. -/
theorem test_sub : view (withFlags (withRegs (core 0 [0x04, 0x00, 0x01]) 0 1 0 0) true false) =
    some (⟨255, 1, 0, 0⟩, 3, true, false, true) := by decide
/-- 2.2: 5 - 10; the first operand is the one subtracted from. -/
theorem test_sub_below : view (withRegs (core 0 [0x04, 0x00, 0x01]) 5 10 0 0) =
    some (⟨251, 10, 0, 0⟩, 3, false, false, true) := by decide

/-- 2.3: 0 against 255 turns EQ off and NE on. -/
theorem test_cmp : view (withFlags (withRegs (core 0 [0x07, 0x00, 0x01]) 0 255 0 0) true false) =
    some (⟨0, 255, 0, 0⟩, 3, false, true, true) := by decide
/-- 2.7 row 4, cycle 2: a bad register keeps both flags. -/
theorem test_cmp_bad : view (withFlags (core 3 [0x07, 0x09, 0x01]) true false) =
    some (⟨0, 0, 0, 0⟩, 6, true, false, false) := by decide

/-- 2.4 row 2: a jump to itself. -/
theorem test_jump : view (core 4 [0x05, 0x04]) = some (⟨0, 0, 0, 0⟩, 4, false, false, true) := by decide
/-- 2.6 row 4: JUMP at 255 jumps to 255, Halted. -/
theorem test_jump_top : view (core 255 [0x05]) = some (⟨0, 0, 0, 0⟩, 255, false, false, false) := by decide

/-- 2.4 row 4. -/
theorem test_jeq_taken : view (withFlags (core 9 [0x08, 0x0D]) true false) =
    some (⟨0, 0, 0, 0⟩, 13, true, false, true) := by decide
/-- 2.4 row 6. -/
theorem test_jeq_not_taken : view (core 9 [0x08, 0x0D]) = some (⟨0, 0, 0, 0⟩, 11, false, false, true) := by decide

/-- 2.4 row 7. -/
theorem test_jne_taken : view (withFlags (core 27 [0x09, 0x09]) false true) =
    some (⟨0, 0, 0, 0⟩, 9, false, true, true) := by decide
/-- 2.4 row 9: before any CMP the negation of EQ would take it; the stored NE does not. -/
theorem test_jne_not_taken : view (core 27 [0x09, 0x09]) = some (⟨0, 0, 0, 0⟩, 29, false, false, true) := by decide

/-- R131's example: byte FF at 13, a clean halt. -/
theorem test_halt : nextOf (step (core 13 [0xFF])) = some { core 13 [0xFF] with pc := 14, running := false } ∧
    cycleOutcome defaultOpcodeMap (core 13 [0xFF]) = .cleanHalt := by decide
/-- 2.6 row 2: HALT at 255 is a clean halt; nothing is fetched at 256. -/
theorem test_halt_top : view (core 255 [0xFF]) = some (⟨0, 0, 0, 0⟩, 256, false, false, false) ∧
    cycleOutcome defaultOpcodeMap (core 255 [0xFF]) = .cleanHalt := by decide

/-- S9, and 2.6 row 3: an unknown opcode at 255 is no fetch out of bounds. -/
theorem test_unknown : view (core 0 [0x06]) = some (⟨0, 0, 0, 0⟩, 1, false, false, false) ∧
    cycleOutcome defaultOpcodeMap (core 0 [0x06]) = .errorHalt .unknownOpcode ∧
    cycleOutcome defaultOpcodeMap (core 255 [0x06]) = .errorHalt .unknownOpcode := by decide
/-- 2.6 row 12 and 2.7 row 5: the first event decides; 2.6 row 17: the opcode fetch at 256. -/
theorem test_outcomes : cycleOutcome defaultOpcodeMap (core 254 [0x03, 0x00]) = .errorHalt .fetchOob ∧
    cycleOutcome defaultOpcodeMap (core 0 [0x03, 0x04, 0x00]) = .errorHalt .badRegister ∧
    cycleOutcome defaultOpcodeMap (core 256 []) = .errorHalt .fetchOob := by decide

/-! ### The host and the assembler -/

/-- 2.8 row 8 and 2.5 row 3: a run of nothing, and a run of a Halted core. -/
theorem test_run_nothing :
    run defaultOpcodeMap 0 State.reset = .next (State.reset, ⟨.budgetExhausted, 0⟩) ∧
    run defaultOpcodeMap 5 (halted State.reset) = .next (halted State.reset, ⟨.halted, 0⟩) := ⟨rfl, rfl⟩
/-- 2.8 row 6: the tail of the first image stays. -/
theorem test_load_tail :
    ((loadProgram [0x05, 0x00] (core 0 [0x01, 0x00, 0x05, 0x03])).map fun t => (t.mem.read 0, t.mem.read 1, t.mem.read 2,
      t.mem.read 3)) = some (0x05, 0x00, 0x05, 0x03) := by decide
/-- S5. -/
theorem test_load_too_long : loadProgram (List.replicate 257 5) State.reset = none :=
  if_neg (by rw [List.length_replicate]; decide)

/-- S3. -/
theorem test_asm_image : assemble defaultOpcodeMap "LOAD R0, 5\nADD R0, R1\nHALT".toList =
    .ok [0x01, 0, 5, 0x03, 0, 1, 0xFF] := by decide
/-- S4, both texts. -/
theorem test_asm_forward :
    assemble defaultOpcodeMap "JUMP skip\nHALT\nskip:\nHALT".toList = .ok [0x05, 3, 0xFF, 0xFF] ∧
    assemble defaultOpcodeMap "JUMP skip\nskip:\nHALT\nHALT".toList = .ok [0x05, 2, 0xFF, 0xFF] := by decide
/-- 2.9: comments and blank lines, the text after a colon, a register before a label, digits of either case. -/
theorem test_asm_forms :
    assemble defaultOpcodeMap "# only a comment\n\n   \nNOP # x".toList = .ok [0x00] ∧
    assemble defaultOpcodeMap "loop: ADD R0, R1\nJUMP loop".toList = .ok [0x05, 0] ∧
    assemble defaultOpcodeMap "R1:\nJUMP R1".toList = .ok [0x05, 1] ∧
    assemble defaultOpcodeMap "LOAD R3, 0xfF,".toList = .ok [0x01, 3, 255] ∧
    assemble defaultOpcodeMap "HALT 1 2".toList = .ok [0xFF, 1, 2] := by decide
/-- 2.9: sources that fail. -/
theorem test_asm_errors :
    assemble defaultOpcodeMap "x:\nx:".toList = .error (.duplicateLabel ['x']) ∧
    assemble defaultOpcodeMap "load R0, 5".toList = .error (.unknownMnemonic "load".toList) ∧
    assemble defaultOpcodeMap "LOAD R0,5".toList = .error (.unresolvedOperand "R0,5".toList) ∧
    assemble defaultOpcodeMap "LOAD R0 , 5".toList = .error (.unresolvedOperand []) ∧
    assemble defaultOpcodeMap "LOAD R4, 0".toList = .error (.unresolvedOperand "R4".toList) ∧
    assemble defaultOpcodeMap "LOAD R0, 300".toList = .error (.operandRange "300".toList) := by decide

/-! ### Witnesses: the hypotheses of each obligation, met -/

/-- The hypotheses that every whole-instruction rule shares. -/
abbrev At (s : State) (k : Mnemonic) : Prop :=
  s.running = true ∧ s.pc.val < 256 ∧ s.mem.read s.pc.val = defaultOpcodeMap k

/-- The default map meets what the statements ask of a map. -/
theorem witness_Admissible : defaultOpcodeMap.Admissible ∧ Function.Injective defaultOpcodeMap :=
  ⟨defaultOpcodeMap_admissible, defaultOpcodeMap_admissible.1⟩

theorem witness_EncodeThenDecode : Function.Injective defaultOpcodeMap := defaultOpcodeMap_admissible.1
theorem witness_DecodeThenEncode : decode defaultOpcodeMap [0x02, 0x03, 0xFF, 0x77] = .ok (.store 3 0xFF, [0x77]) := by
  decide
theorem witness_LengthByOpcodeAlone_decode : decode defaultOpcodeMap (0x05 :: [0x02]) = .ok (.jump 2, []) := by decide
theorem witness_LengthByOpcodeAlone_fetch :
    (core 253 [0x01]).mem.read (core 253 [0x01]).pc.val = 0x01 ∧
    (core 253 [0x01]).pc.val + (1 + operandCountOf defaultOpcodeMap 0x01) ≤ 256 := by decide

theorem witness_LoadRule_inside : At (core 253 [0x01, 0x03, 0xFD]) .load ∧ (core 253 [0x01, 0x03, 0xFD]).pc.val ≤ 253 ∧
    ((core 253 [0x01, 0x03, 0xFD]).mem.read 254).toNat = Reg.r3.index := by decide
theorem witness_LoadRule_bad : At (core 253 [0x01, 0x04]) .load ∧ (core 253 [0x01, 0x04]).pc.val ≤ 253 ∧
    4 ≤ ((core 253 [0x01, 0x04]).mem.read 254).toNat := by decide
theorem witness_LoadRule_254 : At (core 254 [0x01, 0x03]) .load ∧ (core 254 [0x01, 0x03]).pc.val = 254 ∧
    ((core 254 [0x01, 0x03]).mem.read 255).toNat = Reg.r3.index := by decide
theorem witness_LoadRule_254_bad : At (core 254 [0x01, 0x04]) .load ∧ (core 254 [0x01, 0x04]).pc.val = 254 ∧
    4 ≤ ((core 254 [0x01, 0x04]).mem.read 255).toNat := by decide
theorem witness_LoadRule_255 : At (core 255 [0x01]) .load ∧ (core 255 [0x01]).pc.val = 255 := by decide

theorem witness_StoreRule_inside : (core 253 [0x02, 0x03, 0xFD]).mem.wf = true ∧ At (core 253 [0x02, 0x03, 0xFD]) .store ∧
    (core 253 [0x02, 0x03, 0xFD]).pc.val ≤ 253 ∧ ((core 253 [0x02, 0x03, 0xFD]).mem.read 254).toNat = Reg.r3.index := by
  decide
theorem witness_StoreRule_bad : (core 253 [0x02, 0x04]).mem.wf = true ∧ At (core 253 [0x02, 0x04]) .store ∧
    (core 253 [0x02, 0x04]).pc.val ≤ 253 ∧ 4 ≤ ((core 253 [0x02, 0x04]).mem.read 254).toNat := by decide
theorem witness_StoreRule_254 : (core 254 [0x02, 0x03]).mem.wf = true ∧ At (core 254 [0x02, 0x03]) .store ∧
    (core 254 [0x02, 0x03]).pc.val = 254 ∧ ((core 254 [0x02, 0x03]).mem.read 255).toNat = Reg.r3.index := by decide
theorem witness_StoreRule_254_bad : (core 254 [0x02, 0x04]).mem.wf = true ∧ At (core 254 [0x02, 0x04]) .store ∧
    (core 254 [0x02, 0x04]).pc.val = 254 ∧ 4 ≤ ((core 254 [0x02, 0x04]).mem.read 255).toNat := by decide
theorem witness_StoreRule_255 : (core 255 [0x02]).mem.wf = true ∧ At (core 255 [0x02]) .store ∧
    (core 255 [0x02]).pc.val = 255 := by decide

theorem witness_AddRule_inside : At (core 253 [0x03, 0x03, 0x00]) .add ∧ (core 253 [0x03, 0x03, 0x00]).pc.val ≤ 253 ∧
    ((core 253 [0x03, 0x03, 0x00]).mem.read 254).toNat = Reg.r3.index ∧
    ((core 253 [0x03, 0x03, 0x00]).mem.read 255).toNat = Reg.r0.index := by decide
theorem witness_AddRule_bad : At (core 253 [0x03, 0x03, 0x04]) .add ∧ (core 253 [0x03, 0x03, 0x04]).pc.val ≤ 253 ∧
    (4 ≤ ((core 253 [0x03, 0x03, 0x04]).mem.read 254).toNat ∨ 4 ≤ ((core 253 [0x03, 0x03, 0x04]).mem.read 255).toNat) := by
  decide
theorem witness_AddRule_top : At (core 254 [0x03]) .add ∧ 254 ≤ (core 254 [0x03]).pc.val ∧ At (core 255 [0x03]) .add ∧
    254 ≤ (core 255 [0x03]).pc.val := by decide

theorem witness_SubRule_inside : At (core 253 [0x04, 0x00, 0x03]) .sub ∧ (core 253 [0x04, 0x00, 0x03]).pc.val ≤ 253 ∧
    ((core 253 [0x04, 0x00, 0x03]).mem.read 254).toNat = Reg.r0.index ∧
    ((core 253 [0x04, 0x00, 0x03]).mem.read 255).toNat = Reg.r3.index := by decide
theorem witness_SubRule_bad : At (core 253 [0x04, 0x04]) .sub ∧ (core 253 [0x04, 0x04]).pc.val ≤ 253 ∧
    (4 ≤ ((core 253 [0x04, 0x04]).mem.read 254).toNat ∨ 4 ≤ ((core 253 [0x04, 0x04]).mem.read 255).toNat) := by decide
theorem witness_SubRule_top : At (core 254 [0x04]) .sub ∧ 254 ≤ (core 254 [0x04]).pc.val ∧ At (core 255 [0x04]) .sub ∧
    254 ≤ (core 255 [0x04]).pc.val := by decide

theorem witness_CmpRule_inside : At (core 253 [0x07, 0x02, 0x03]) .cmp ∧ (core 253 [0x07, 0x02, 0x03]).pc.val ≤ 253 ∧
    ((core 253 [0x07, 0x02, 0x03]).mem.read 254).toNat = Reg.r2.index ∧
    ((core 253 [0x07, 0x02, 0x03]).mem.read 255).toNat = Reg.r3.index := by decide
theorem witness_CmpRule_bad : At (core 253 [0x07, 0x00, 0xFF]) .cmp ∧ (core 253 [0x07, 0x00, 0xFF]).pc.val ≤ 253 ∧
    (4 ≤ ((core 253 [0x07, 0x00, 0xFF]).mem.read 254).toNat ∨ 4 ≤ ((core 253 [0x07, 0x00, 0xFF]).mem.read 255).toNat) := by
  decide
theorem witness_CmpRule_top : At (core 254 [0x07]) .cmp ∧ 254 ≤ (core 254 [0x07]).pc.val ∧ At (core 255 [0x07]) .cmp ∧
    254 ≤ (core 255 [0x07]).pc.val := by decide

theorem witness_JumpRule : At (core 254 [0x05]) .jump ∧ (core 254 [0x05]).pc.val ≤ 254 ∧ At (core 255 [0x05]) .jump ∧
    (core 255 [0x05]).pc.val = 255 := by decide
/-- Both clauses, with EQ true and with EQ false. -/
theorem witness_JeqRule : At (withFlags (core 254 [0x08]) true false) .jeq ∧ (core 254 [0x08]).pc.val ≤ 254 ∧
    At (core 254 [0x08]) .jeq ∧ At (withFlags (core 255 [0x08]) true false) .jeq ∧ At (core 255 [0x08]) .jeq ∧
    (core 255 [0x08]).pc.val = 255 := by decide
/-- Both clauses, with NE true and with NE false. -/
theorem witness_JneRule : At (withFlags (core 254 [0x09]) false true) .jne ∧ (core 254 [0x09]).pc.val ≤ 254 ∧
    At (core 254 [0x09]) .jne ∧ At (withFlags (core 255 [0x09]) false true) .jne ∧ At (core 255 [0x09]) .jne ∧
    (core 255 [0x09]).pc.val = 255 := by decide
theorem witness_NopRule : At (core 255 [0x00]) .nop := by decide
theorem witness_HaltRule : (core 255 [0xFF]).running = true ∧ (core 255 [0xFF]).pc.val < 256 ∧
    (core 255 [0xFF]).mem.read (core 255 [0xFF]).pc.val = 0xFF := by decide
theorem witness_UnknownOpcodeRule : (core 255 [0xFE]).running = true ∧ (core 255 [0xFE]).pc.val < 256 ∧
    ∀ k, defaultOpcodeMap k ≠ (core 255 [0xFE]).mem.read (core 255 [0xFE]).pc.val :=
  ⟨by decide, by decide, fun k => by cases k <;> decide⟩

theorem witness_FetchRule : (core 255 [0x11]).pc.val < 256 ∧ (core 256 []).pc.val = 256 := by decide
theorem witness_StepRunsDecoded : (core 253 [0x03, 0x00, 0x01]).running = true ∧
    decode defaultOpcodeMap ((core 253 [0x03, 0x00, 0x01]).memoryFrom (core 253 [0x03, 0x00, 0x01]).pc.val) =
      .ok (.add 0 1, []) := by decide
/-- All the bytes are there: two are left. -/
theorem witness_StepPastTheEnd_inside : (core 255 [0xFF]).running = true ∧ (core 255 [0xFF]).pc.val < 256 ∧
    decode defaultOpcodeMap ((core 255 [0xFF]).memoryFrom (core 255 [0xFF]).pc.val ++ [0xFF, 0xFF]) =
      .ok (.halt, [0xFF, 0xFF]) ∧ 2 ≤ [(0xFF : Byte), 0xFF].length := by decide
/-- One byte is missing: fewer than two are left. -/
theorem witness_StepPastTheEnd_past : (core 254 [0x01, 0x03]).running = true ∧ (core 254 [0x01, 0x03]).pc.val < 256 ∧
    decode defaultOpcodeMap ((core 254 [0x01, 0x03]).memoryFrom (core 254 [0x01, 0x03]).pc.val ++ [0xFF, 0xFF]) =
      .ok (.load 3 0xFF, [0xFF]) ∧ [(0xFF : Byte)].length < 2 := by decide
theorem witness_OpcodeFetchAtTheEnd : (core 256 []).running = true ∧ (core 256 []).pc.val = 256 := by decide
theorem witness_HaltedIsTerminal : (halted (core 7 [])).running = false := by decide

theorem witness_DataTransferCompletes : (3 : Byte).toNat = Reg.r3.index ∧ (core 0 [0x02]).mem.wf = true := by decide
theorem witness_AluCompletes : (3 : Byte).toNat = Reg.r3.index ∧ (0 : Byte).toNat = Reg.r0.index := by decide
theorem witness_BadRegisterHalts : 4 ≤ (4 : Byte).toNat ∧ (4 ≤ (3 : Byte).toNat ∨ 4 ≤ (255 : Byte).toNat) := by decide

theorem witness_RegisterWritersFrame : (∃ t, exec (.load 3 0xFF) (core 0 []) = .next t) ∧
    (∃ t, exec (.add 3 0) (core 0 []) = .next t) ∧ (∃ t, exec (.sub 4 0) (core 0 []) = .next t) ∧
    (4 : Byte).toNat ≠ Reg.r0.index := ⟨⟨_, rfl⟩, ⟨_, rfl⟩, ⟨_, rfl⟩, by decide⟩
theorem witness_StoreFrame : (core 0 [0x02]).mem.wf = true ∧ (∃ t, exec (.store 3 0xFF) (core 0 [0x02]) = .next t) ∧
    254 ≠ address 0xFF := ⟨by decide, ⟨_, rfl⟩, by decide⟩
theorem witness_CompareFrame : ∃ t, exec (.cmp 3 4) (core 0 []) = .next t := ⟨_, rfl⟩
theorem witness_ControlFrame : (∃ t, exec (.jump 0xFF) (core 0 []) = .next t) ∧
    (∃ t, exec (.jeq 0xFF) (core 0 []) = .next t) ∧ (∃ t, exec (.jne 0xFF) (core 0 []) = .next t) ∧
    (∃ t, exec .nop (core 0 []) = .next t) ∧ ∃ t, exec .halt (core 0 []) = .next t :=
  ⟨⟨_, rfl⟩, ⟨_, rfl⟩, ⟨_, rfl⟩, ⟨_, rfl⟩, ⟨_, rfl⟩⟩

theorem witness_FlagsChangeOnlyAtCmp :
    ((∃ t, stepWith defaultOpcodeMap (core 0 [0x08]) = .next t) ∧ (core 0 [0x08]).mem.read 0 ≠ defaultOpcodeMap .cmp) ∧
    (∃ t, stepWith defaultOpcodeMap (core 256 []) = .next t) ∧ (core 256 []).pc.val = 256 :=
  ⟨⟨⟨_, rfl⟩, by decide⟩, ⟨_, rfl⟩, by decide⟩
theorem witness_RegistersChangeOnlyAtLoadAddSub :
    ((∃ t, stepWith defaultOpcodeMap (core 0 [0x02]) = .next t) ∧ (core 0 [0x02]).mem.read 0 ≠ defaultOpcodeMap .load ∧
      (core 0 [0x02]).mem.read 0 ≠ defaultOpcodeMap .add ∧ (core 0 [0x02]).mem.read 0 ≠ defaultOpcodeMap .sub) ∧
    (∃ t, stepWith defaultOpcodeMap (core 256 []) = .next t) ∧ (core 256 []).pc.val = 256 :=
  ⟨⟨⟨_, rfl⟩, by decide⟩, ⟨_, rfl⟩, by decide⟩
theorem witness_MemoryChangesOnlyAtStore : (core 253 [0x02, 0x00, 0x10]).mem.wf = true ∧
    (∃ t, stepWith defaultOpcodeMap (core 253 [0x02, 0x00, 0x10]) = .next t) ∧ (core 0 [0x01]).mem.wf = true ∧
    (∃ t, stepWith defaultOpcodeMap (core 0 [0x01]) = .next t) ∧ (core 0 [0x01]).mem.read 0 ≠ defaultOpcodeMap .store :=
  ⟨by decide, ⟨_, rfl⟩, by decide, ⟨_, rfl⟩, by decide⟩
theorem witness_OnlyResetLeavesHalted : HostOp.poke 0 0xFF ≠ .reset ∧ (halted (core 1 [0x06])).running = false ∧
    ∃ t reply, hostStep defaultOpcodeMap (.poke 0 0xFF) (halted (core 1 [0x06])) = .next (t, reply) :=
  ⟨by decide, by decide, _, _, rfl⟩
theorem witness_ComplementaryFlagsAreKept : (withFlags (core 0 [0x07]) true false).FlagsComplementary ∧
    ∃ t, stepWith defaultOpcodeMap (withFlags (core 0 [0x07]) true false) = .next t := ⟨rfl, _, rfl⟩
theorem witness_OutcomeAgreesWithRunning : (core 0 [0x06]).running = true ∧
    ∃ t, cycle defaultOpcodeMap (core 0 [0x06]) = .next t := ⟨rfl, _, rfl⟩
theorem witness_CleanHaltExactlyAtHalt : (core 255 [0xFF]).running = true := rfl
theorem witness_StoreIsSeenByFetch : (core 253 [0x02, 0x03, 0xFD]).mem.wf = true ∧
    (core 253 [0x02, 0x03, 0xFD]).running = true ∧ (core 253 [0x02, 0x03, 0xFD]).pc.val ≤ 253 ∧
    (core 253 [0x02, 0x03, 0xFD]).mem.read 253 = defaultOpcodeMap .store ∧
    ((core 253 [0x02, 0x03, 0xFD]).mem.read 254).toNat = Reg.r3.index := by decide
theorem witness_SubUndoesAdd : (0 : Byte).toNat = Reg.r0.index ∧ (3 : Byte).toNat = Reg.r3.index ∧ Reg.r0 ≠ Reg.r3 := by
  decide

theorem witness_StepKeepsInvariant : (withFlags (core 250 [0x07, 0x00]) true false).Inv ∧
    ∃ t, step (withFlags (core 250 [0x07, 0x00]) true false) = .next t :=
  ⟨⟨by decide, by show ¬ (_ ∧ _); decide⟩, _, rfl⟩
theorem witness_SessionKeepsInvariant : (withFlags (core 255 [0x01]) false true).Inv :=
  ⟨by decide, by show ¬ (_ ∧ _); decide⟩
theorem witness_LoadProgramRule : (core 250 [0x01]).mem.wf = true ∧ (List.replicate 256 (5 : Byte)).length ≤ 256 ∧
    1 < (List.replicate 256 (5 : Byte)).length ∧ [(5 : Byte)].length ≤ 255 := by
  simp only [List.length_replicate]; decide
theorem witness_OversizedLoadFails : 256 < (List.replicate 257 (5 : Byte)).length ∧
    (List.replicate 256 (5 : Byte)).length = 256 ∧ (core 250 [0x01]).mem.wf = true := by
  simp only [List.length_replicate]; decide
theorem witness_PokeRule : (core 255 [0x01]).mem.wf = true := by decide
theorem witness_RunReportRule : (core 0 [0x05]).running = true ∧ (halted (core 0 [])).running = false := by decide
theorem witness_RunsCompose : ∃ t u r q, run defaultOpcodeMap 1 (core 0 [0x05]) = .next (t, r) ∧
    run defaultOpcodeMap 1 t = .next (u, q) := ⟨_, _, _, _, rfl, rfl⟩
theorem witness_StepsAreRun : (∃ t, Host.Core.run Sys2Proof.core 1 (core 0 [0x05]) = .next t) ∧
    ∃ t report, run defaultOpcodeMap 1 (core 0 [0x05]) = .next (t, report) := ⟨⟨_, rfl⟩, _, _, rfl⟩
theorem witness_SafeRunEndsAtHalt : (core 0 [0xFF]).running = true ∧ SafeFor defaultOpcodeMap 1 (core 0 [0xFF]) ∧
    ∃ t report, run defaultOpcodeMap 1 (core 0 [0xFF]) = .next (t, report) ∧ t.running = false :=
  ⟨rfl, fun _ => ⟨by decide, fun _ _ => trivial⟩, _, _, rfl, rfl⟩

theorem witness_SourceFormAssembles : ∀ i ∈ [Instr.load 3 255, .nop, .cmp 0 3, .halt], i.wellFormed = true := by decide
theorem witness_ImageLengthIsCounter : ∃ image, assemble defaultOpcodeMap "a:\nJUMP a".toList = .ok image :=
  ⟨[0x05, 0], by decide⟩
theorem witness_DuplicateLabelFails : sourceLines "x:\nNOP\nx:".toList =
    [] ++ .label ['x'] :: [.instr ["NOP".toList]] ++ .label ['x'] :: [] := by decide
theorem witness_RegisterNamesResolveFirst : (3 : Byte).toNat < 4 := by decide

end Sys2Proof.Tests
end

section
/-! PROOFS. The statements about the state (`10_state.md`): what an instruction and a step do to the flags, the registers
and memory, each said once as a lemma about `exec`, lifted to `stepWith` through one inversion lemma. -/
namespace Sys2Proof.Machine

/-! ### What a step can do -/

/-- All that the next state of a step can be: the state itself (Halted core), what an instruction of the fetched opcode
makes of the state after the fetches, or a halt after the fetch of an unknown opcode. -/
theorem stepWith_next_cases {m : OpcodeMap} {s t : State} (h : stepWith m s = .next t) :
    t = s ∨ (∃ i : Instr, m i.mnemonic = (fetch m s).1 ∧ exec i (fetchInstr m s).2 = .next t) ∨
      t = (fetch m s).2.raiseHalt := by
  obtain ⟨-, hc⟩ | ⟨-, rfl⟩ := stepWith_cases h
  · obtain ⟨i, -, hop, he⟩ | ⟨-, -, he⟩ := cycle_cases m s
    · exact .inr (.inl ⟨i, hop, he.symm.trans hc⟩)
    · exact .inr (.inr (Host.Outcome.next.inj (hc.symm.trans he)))
  · exact .inl rfl

/-- An instruction whose opcode was fetched is not of mnemonic `k`, when the byte at pc is not `k`'s or pc is 256; there
the fetch answers HALT's opcode (R80), so `k` must not be HALT. -/
theorem mnemonic_ne_of_fetch {m : OpcodeMap} (hm : Function.Injective m) {s : State} {i : Instr} {k : Mnemonic}
    (hi : m i.mnemonic = (fetch m s).1) (hk : k ≠ .halt) (h : s.mem.read s.pc.val ≠ m k ∨ s.pc.val = 256) :
    i.mnemonic ≠ k := by
  rintro rfl
  by_cases hp : s.pc.val < 256
  · rw [fetch_of_lt hp] at hi
    exact h.elim (fun hne => hne hi.symm) (by omega)
  · rw [fetch_of_end hp] at hi
    exact hk (hm hi)

/-! ### The flags (R15, R16) -/

/-- An instruction keeps both flags or leaves exactly one true, as CMP does. -/
theorem exec_flags_cases {i : Instr} {s t : State} (h : exec i s = .next t) :
    (t.flagEq = s.flagEq ∧ t.flagNe = s.flagNe) ∨ t.FlagsComplementary := by
  by_cases hi : ∃ b c, i = .cmp b c
  · obtain ⟨b, c, rfl⟩ := hi
    obtain ⟨_, _, -, -, rfl⟩ | ⟨-, rfl⟩ := execCmp_cases h
    · exact .inr rfl
    · exact .inl ⟨rfl, rfl⟩
  · exact .inl (exec_flags h fun b c hc => hi ⟨b, c, hc⟩)

/-- A step keeps both flags or leaves exactly one true. -/
theorem stepWith_flags_cases {m : OpcodeMap} {s t : State} (h : stepWith m s = .next t) :
    (t.flagEq = s.flagEq ∧ t.flagNe = s.flagNe) ∨ t.FlagsComplementary := by
  obtain rfl | ⟨i, -, he⟩ | rfl := stepWith_next_cases h
  · exact .inl ⟨rfl, rfl⟩
  · simpa using exec_flags_cases he
  · exact .inl ⟨by simp, by simp⟩

theorem State.FlagsComplementary.exclusive {s : State} (h : s.FlagsComplementary) : s.FlagsExclusive := by
  rintro ⟨he, hn⟩
  simp [State.FlagsComplementary, he, hn] at h

/-! ### Memory in canonical form (R19) -/

/-- An instruction keeps memory canonical: STORE writes to a cell that exists, and no other instruction writes. -/
theorem exec_mem_wf {i : Instr} {s t : State} (hw : s.mem.wf = true) (h : exec i s = .next t) : t.mem.wf = true := by
  by_cases hi : i.mnemonic = .store
  · cases i <;> simp only [Instr.mnemonic, reduceCtorEq] at hi
    obtain ⟨_, -, rfl⟩ | ⟨-, rfl⟩ := execStore_cases h
    · exact Memory.write_wf hw (address_lt _) _
    · exact hw
  · rwa [exec_memory h hi]

theorem stepWith_mem_wf {m : OpcodeMap} {s t : State} (hw : s.mem.wf = true) (h : stepWith m s = .next t) :
    t.mem.wf = true := by
  obtain rfl | ⟨i, -, he⟩ | rfl := stepWith_next_cases h
  · exact hw
  · exact exec_mem_wf (by simpa using hw) he
  · simpa using hw

/-! ### The invariant -/

theorem stepWith_inv {m : OpcodeMap} {s t : State} (hs : s.Inv) (h : stepWith m s = .next t) : t.Inv := by
  obtain ⟨hw, hf⟩ := hs
  refine ⟨stepWith_mem_wf hw h, ?_⟩
  obtain ⟨he, hn⟩ | hc := stepWith_flags_cases h
  · rwa [State.FlagsExclusive, he, hn]
  · exact hc.exclusive

/-- Settles O42: memory stays canonical since STORE's address is a byte, and the flags are kept or complementary. -/
theorem stepKeepsInvariant : Obligations.StepKeepsInvariant :=
  ⟨fun _ _ => stepWith_inv, fun _ _ _ => stepWith_inv⟩

/-- Settles O43: memory is empty and both flags are false at reset. -/
theorem resetMeetsInvariant : Obligations.ResetMeetsInvariant :=
  ⟨rfl, fun h => Bool.false_ne_true h.1⟩

/-- Settles O37: a step keeps both flags, or a CMP leaves exactly one true. -/
theorem complementaryFlagsAreKept : Obligations.ComplementaryFlagsAreKept := by
  intro m s t hs h
  obtain ⟨he, hn⟩ | hc := stepWith_flags_cases h
  · rwa [State.FlagsComplementary, he, hn]
  · exact hc

/-! ### What changes only at some opcodes -/

/-- Settles O33: the instruction executed is no CMP, and neither fetching nor an unknown opcode touches a flag. -/
theorem flagsChangeOnlyAtCmp : Obligations.FlagsChangeOnlyAtCmp := by
  intro m hm s t h hop
  obtain rfl | ⟨i, hi, he⟩ | rfl := stepWith_next_cases h
  · exact ⟨rfl, rfl⟩
  · have hk : i.mnemonic ≠ .cmp := mnemonic_ne_of_fetch hm.1 hi (by decide) hop
    simpa using exec_flags he (by rintro b c rfl; exact hk rfl)
  · simp

/-- Settles O34: the instruction executed is no LOAD, ADD or SUB, and neither fetching nor an unknown opcode touches a
register. -/
theorem registersChangeOnlyAtLoadAddSub : Obligations.RegistersChangeOnlyAtLoadAddSub := by
  intro m hm s t h hop
  obtain rfl | ⟨i, hi, he⟩ | rfl := stepWith_next_cases h
  · rfl
  · have hk : i.mnemonic ≠ .load ∧ i.mnemonic ≠ .add ∧ i.mnemonic ≠ .sub :=
      ⟨mnemonic_ne_of_fetch hm.1 hi (by decide) (hop.imp_left fun ⟨hl, _, _⟩ => hl),
        mnemonic_ne_of_fetch hm.1 hi (by decide) (hop.imp_left fun ⟨_, ha, _⟩ => ha),
        mnemonic_ne_of_fetch hm.1 hi (by decide) (hop.imp_left fun ⟨_, _, hs⟩ => hs)⟩
    simpa using exec_registers he hk
  · simp

/-! ### The frame of LOAD, ADD and SUB -/

/-- All that LOAD, ADD and SUB can do: write the register their first operand byte names, or halt. -/
theorem registerWriter_cases {s t : State} {b c : Byte} {i : Instr} (hi : i = .load b c ∨ i = .add b c ∨ i = .sub b c)
    (h : exec i s = .next t) : (∃ r v, b.toNat = r.index ∧ t = s.regWrite r v) ∨ t = s.raiseHalt := by
  simp only [← regIndex_eq_some]
  obtain rfl | rfl | rfl := hi
  · obtain ⟨r, hr, rfl⟩ | ⟨-, rfl⟩ := execLoad_cases h
    · exact .inl ⟨r, _, hr, rfl⟩
    · exact .inr rfl
  · obtain ⟨r, _, hr, -, rfl⟩ | ⟨-, rfl⟩ := execAdd_cases h
    · exact .inl ⟨r, _, hr, rfl⟩
    · exact .inr rfl
  · obtain ⟨r, _, hr, -, rfl⟩ | ⟨-, rfl⟩ := execSub_cases h
    · exact .inl ⟨r, _, hr, rfl⟩
    · exact .inr rfl

/-- Settles O29: a register write leaves the other registers and fields alone, and a halt clears running only. -/
theorem registerWritersFrame : Obligations.RegisterWritersFrame := by
  intro s t b c i hi h
  obtain ⟨r, v, hb, rfl⟩ | rfl := registerWriter_cases hi h
  · have hother (q : Reg) (hq : b.toNat ≠ q.index) : (s.x.write r v).read q = s.x.read q :=
      RegFile.read_write_ne s.x (by rintro rfl; exact hq hb) v
    exact ⟨hother, rfl, rfl, rfl, id, fun _ => rfl⟩
  · exact ⟨fun _ _ => rfl, rfl, rfl, rfl, by simp, fun _ => rfl⟩

end Sys2Proof.Machine
end

section
/-! PROOFS. The statements about memory (`20_memory.md`): a step writes memory only by STORE, only in the cell STORE's
address operand names, and the next fetch of that cell meets the byte written. -/
namespace Sys2Proof.Machine

/-! ### Which instruction is fetched -/

/-- An instruction is its mnemonic and its operand bytes. -/
theorem instr_eq_of_bytes {i j : Instr} (hk : i.mnemonic = j.mnemonic) (hb : i.operandBytes = j.operandBytes) :
    i = j := by
  have h := takeOperands_operandBytes i []
  rw [hk, hb, takeOperands_operandBytes j []] at h
  cases h
  rfl

/-- Where the opcode of `i` stands at pc and the fetches after it bring the operand bytes of `i`, `i` is fetched. -/
theorem fetchInstr_of_operands {m : OpcodeMap} (hm : Function.Injective m) {s s' : State} {i : Instr}
    (hp : s.pc.val < 256) (hop : s.mem.read s.pc.val = m i.mnemonic)
    (hb : fetchBytes m i.mnemonic.format.operandCount (s.setPc (pcSucc s.pc)) = (i.operandBytes, s')) :
    fetchInstr m s = (.ok i, s') := by
  obtain ⟨j, hk, hj, hf⟩ := fetchInstr_at hm hp hop
  rw [hb] at hj hf
  rw [hf, instr_eq_of_bytes hk hj]

/-- A STORE with its three bytes in memory is fetched with the two bytes after its opcode. -/
theorem fetchInstr_store_inside {m : OpcodeMap} (hm : Function.Injective m) {s : State} (hp : s.pc.val ≤ 253)
    (hop : s.mem.read s.pc.val = m .store) :
    fetchInstr m s = (.ok (.store (s.mem.read (s.pc.val + 1)) (s.mem.read (s.pc.val + 2))),
      s.setPc ⟨s.pc.val + 3, by omega⟩) :=
  fetchInstr_of_operands hm (by omega) hop (operands_inside m hp)

/-- The address operand of a STORE, wherever it stands: the byte in memory, or HALT's opcode 0xFF when the fetch of it
is out of bounds (R85, decision D4). -/
theorem fetchInstr_store_address {m : OpcodeMap} (hm : m.Admissible) {s : State} (hp : s.pc.val < 256)
    (hop : s.mem.read s.pc.val = m .store) :
    ∃ b c s', fetchInstr m s = (.ok (.store b c), s') ∧
      address c = if s.pc.val ≤ 253 then (s.mem.read (s.pc.val + 2)).toNat else 255 := by
  obtain ⟨hinj, -, -, -, hhalt, -⟩ := hm
  have haddr : address (m .halt) = 255 := by rw [hhalt]; rfl
  obtain h | h | h : s.pc.val ≤ 253 ∨ s.pc.val = 254 ∨ s.pc.val = 255 := by omega
  · exact ⟨_, _, _, fetchInstr_store_inside hinj h hop, by rw [if_pos h]; rfl⟩
  · exact ⟨s.mem.read 255, m .halt, _, fetchInstr_of_operands hinj hp hop (operands_at_254 m h),
      by rw [haddr, if_neg (by omega)]⟩
  · exact ⟨m .halt, m .halt, _, fetchInstr_of_operands hinj hp hop (operands_at_255 m h),
      by rw [haddr, if_neg (by omega)]⟩

/-! ### What a step does to memory (R30, R34) -/

/-- A step whose byte at pc is not STORE's, or whose pc is 256, keeps memory. -/
theorem stepWith_memory {m : OpcodeMap} (hm : Function.Injective m) {s t : State} (h : stepWith m s = .next t)
    (hop : s.mem.read s.pc.val ≠ m .store ∨ s.pc.val = 256) : t.mem = s.mem := by
  obtain rfl | ⟨i, hi, he⟩ | rfl := stepWith_next_cases h
  · rfl
  · simpa using exec_memory he (mnemonic_ne_of_fetch hm hi (by decide) hop)
  · simp

/-- STORE keeps every cell but the one its address operand names. -/
theorem execStore_read_ne {b c : Byte} {s t : State} (hw : s.mem.wf = true) (h : exec (.store b c) s = .next t)
    {a : Nat} (ha : a ≠ address c) : t.mem.read a = s.mem.read a := by
  obtain ⟨r, -, rfl⟩ | ⟨-, rfl⟩ := execStore_cases h
  · rw [State.memWrite_mem, Memory.read_write hw, if_neg ha]
  · rfl

/-- Settles O35: a step at a STORE executes it with the address operand of `fetchInstr_store_address`, and any other
step writes no memory. -/
theorem memoryChangesOnlyAtStore : Obligations.MemoryChangesOnlyAtStore := by
  intro m hm s t hw h
  refine ⟨stepWith_memory hm.1 h, fun a ha => ?_⟩
  by_cases hop : s.mem.read s.pc.val ≠ m .store ∨ s.pc.val = 256
  · rw [stepWith_memory hm.1 h hop]
  · obtain ⟨hstore, hpc⟩ : s.mem.read s.pc.val = m .store ∧ s.pc.val ≠ 256 := by simpa using hop
    obtain ⟨b, c, s', hf, hc⟩ := fetchInstr_store_address hm (by omega) hstore
    have hmem : s'.mem = s.mem := by simpa [hf] using fetchInstr_mem m s
    obtain ⟨-, hcycle⟩ | ⟨-, rfl⟩ := stepWith_cases h
    · rw [cycle_of_fetch hf] at hcycle
      rw [execStore_read_ne (by rwa [hmem]) hcycle (by rwa [hc]), hmem]
    · rfl

/-! ### What a STORE writes and a fetch reads (R37, R41) -/

/-- The step of a STORE with its three bytes in memory and a good register byte: the register's byte goes to the cell
the address byte names, and pc moves past the instruction (R101). -/
theorem stepWith_store {m : OpcodeMap} (hm : Function.Injective m) {s : State} {i : Reg} (hr : s.running = true)
    (hp : s.pc.val ≤ 253) (hop : s.mem.read s.pc.val = m .store)
    (hi : (s.mem.read (s.pc.val + 1)).toNat = i.index) :
    stepWith m s = .next
      ((s.setPc ⟨s.pc.val + 3, by omega⟩).memWrite (address (s.mem.read (s.pc.val + 2))) (s.x.read i)) := by
  rw [stepWith, if_pos hr, cycle_of_fetch (fetchInstr_store_inside hm hp hop)]
  exact onReg_named hi _ _

/-- A fetch at the cell an address byte names answers the byte in it. -/
theorem fetch_at_address (m : OpcodeMap) (t : State) (b : Byte) :
    (fetch m (t.setPc (jumpTarget b))).1 = t.mem.read (address b) := by
  rw [fetch_of_lt (address_lt b)]
  rfl

/-- Settles O40: the fetch reads the cell `stepWith_store` has written, be it one of the STORE's own. -/
theorem storeIsSeenByFetch : Obligations.StoreIsSeenByFetch := by
  intro m hm s i hw hr hp hop hi
  refine ⟨_, stepWith_store hm.1 hr hp hop hi, ?_⟩
  rw [fetch_at_address, State.memWrite_mem, State.setPc_mem, Memory.read_write hw, if_pos rfl]

end Sys2Proof.Machine
end

section
/-! PROOFS. The statements about encoding and decoding (`30_encoding.md` R50 to R61): what the decoder answers on the
bytes of an instruction and on any others, how long an instruction is, and that every cycle is defined. -/
namespace Sys2Proof.Machine

/-! ### What the decoder answers -/

/-- The decoder splits off the operands of the mnemonic whose opcode stands first. -/
theorem decode_opcode {m : OpcodeMap} (hm : Function.Injective m) (k : Mnemonic) (bytes : List Byte) :
    decode m (m k :: bytes) = takeOperands k bytes := by
  simp [decode, decodeOpcode_self hm]

/-- The decoder answers an unknown opcode for a byte that the map gives to no mnemonic (R58). -/
theorem decode_unknown {m : OpcodeMap} {op : Byte} (h : ∀ k, m k ≠ op) (bytes : List Byte) :
    decode m (op :: bytes) = .error (.unknownOpcode op) := by
  simp [decode, decodeOpcode_none.mpr h]

/-- Unless the first byte is no opcode, the decoder splits off the operands of some mnemonic that has it. -/
theorem decode_cons_cases (m : OpcodeMap) (op : Byte) (bytes : List Byte) :
    (∃ k, m k = op ∧ decode m (op :: bytes) = takeOperands k bytes) ∨ ∀ k, m k ≠ op := by
  cases h : decodeOpcode m op with
  | none => exact .inr (decodeOpcode_none.mp h)
  | some k => exact .inl ⟨k, decodeOpcode_some h, by simp [decode, h]⟩

/-- The splitter has one error, a sequence that ends before the operands do. -/
theorem takeOperands_error {k : Mnemonic} {bytes : List Byte} {e : DecodeError} (h : takeOperands k bytes = .error e) :
    e = .truncated k := by
  unfold takeOperands at h
  split at h <;> cases h
  rfl

/-- Settles O1: the opcode gives the mnemonic back, and the splitter takes exactly the operand bytes. -/
theorem encodeThenDecode : Obligations.EncodeThenDecode := by
  intro m hm i rest
  calc decode m (encode m i ++ rest)
    _ = takeOperands i.mnemonic (i.operandBytes ++ rest) := decode_opcode hm _ _
    _ = .ok (i, rest) := takeOperands_operandBytes i rest

/-- Settles O2: the first byte is the opcode of the mnemonic found, and the splitter's answer ends its operand bytes. -/
theorem decodeThenEncode : Obligations.DecodeThenEncode := by
  rintro m (_ | ⟨op, bytes⟩) rest i h
  · cases h
  · obtain ⟨k, rfl, hd⟩ | hu := decode_cons_cases m op bytes
    · obtain ⟨rfl, rfl⟩ := takeOperands_ok (hd.symm.trans h)
      rfl
    · rw [decode_unknown hu] at h
      cases h

/-- Settles O4: with a mnemonic for the first byte the only error is a truncated instruction. -/
theorem unknownOpcodeExactly : Obligations.UnknownOpcodeExactly := by
  refine fun m op bytes => ⟨fun h => ?_, fun h => decode_unknown h bytes⟩
  obtain ⟨k, -, hd⟩ | hu := decode_cons_cases m op bytes
  · cases takeOperands_error (hd.symm.trans h)
  · exact hu

/-- Settles O6: the words are decoded one by one. -/
theorem specWordsDecode : Obligations.SpecWordsDecode := by
  unfold Obligations.SpecWordsDecode
  decide

/-! ### An instruction's length (R52) -/

theorem operandCountOf_unknown {m : OpcodeMap} {op : Byte} (h : ∀ k, m k ≠ op) : operandCountOf m op = 0 := by
  simp [operandCountOf, decodeOpcode_none.mpr h]

/-- The length as a function of the opcode byte: by the mnemonic where the map has one for it, and 1 elsewhere. -/
theorem length_by_opcode {m : OpcodeMap} (hm : Function.Injective m) (op : Byte) :
    1 + operandCountOf m op =
      if op = m .load ∨ op = m .store ∨ op = m .add ∨ op = m .sub ∨ op = m .cmp then 3
      else if op = m .jump ∨ op = m .jeq ∨ op = m .jne then 2
      else 1 := by
  by_cases h : ∃ k, m k = op
  · obtain ⟨k, rfl⟩ := h
    simp only [operandCountOf_self hm, hm.eq_iff]
    cases k <;> rfl
  · push Not at h
    simp [operandCountOf_unknown h, fun k => (h k).symm]

/-- Decoding consumes the opcode and the operands it asks for. -/
theorem decode_length {m : OpcodeMap} (hm : Function.Injective m) {op : Byte} {bytes rest : List Byte} {i : Instr}
    (h : decode m (op :: bytes) = .ok (i, rest)) :
    (op :: bytes).length = rest.length + (1 + operandCountOf m op) := by
  have hb : op :: bytes = m i.mnemonic :: (i.operandBytes ++ rest) := decodeThenEncode m _ _ _ h
  obtain ⟨rfl, rfl⟩ := List.cons.inj hb
  simp only [List.length_cons, List.length_append, operandCountOf_self hm, Instr.operandBytes_length]
  omega

/-- Fetches that stay inside memory move pc by one each. -/
theorem fetchBytes_pc (m : OpcodeMap) {n : Nat} {s : State} (h : s.pc.val + n ≤ 256) :
    (fetchBytes m n s).2.pc.val = s.pc.val + n := by
  induction n generalizing s with
  | zero => rfl
  | succ n ih =>
    have hf : (fetch m s).2.pc.val = s.pc.val + 1 := by
      rw [fetch_of_lt (by omega), State.setPc_pc, pcSucc_val (by omega)]
    rw [fetchBytes, ih (by omega), hf]
    omega

/-- An instruction is fetched by one fetch for its opcode and one for each operand. -/
theorem fetchInstr_state (m : OpcodeMap) (s : State) :
    (fetchInstr m s).2 = (fetchBytes m (operandCountOf m (fetch m s).1 + 1) s).2 := rfl

/-- Settles O3: the length by opcode is the number of bytes both the decoder and the fetches consume. -/
theorem lengthByOpcodeAlone : Obligations.LengthByOpcodeAlone := by
  refine fun m hm op => ⟨length_by_opcode hm op, fun _ _ _ => decode_length hm, ?_⟩
  rintro s rfl hp
  have hop : (fetch m s).1 = s.mem.read s.pc.val := by rw [fetch_of_lt (by omega)]
  rw [fetchInstr_state, hop, fetchBytes_pc m (by omega), Nat.add_comm 1]

/-! ### Every byte sequence has a cycle (R58, R84) -/

theorem cycle_answers (m : OpcodeMap) (s : State) : ∃ t, cycle m s = .next t := by
  obtain ⟨i, -, -, hc⟩ | ⟨-, -, hc⟩ := cycle_cases m s
  · exact hc ▸ exec_answers i _
  · exact ⟨_, hc⟩

/-- Settles O22: every instruction answers a next state, and so does the halt on an unknown opcode. -/
theorem everyCycleIsDefined : Obligations.EveryCycleIsDefined := by
  refine fun m s => ⟨cycle_answers m s, ?_⟩
  unfold stepWith
  split
  · exact cycle_answers m s
  · exact ⟨s, rfl⟩

/-! ### Bad register bytes (R54, R143) -/

theorem State.raiseHalt_haltedAt (s : State) : s.HaltedAt s.pc.val s.raiseHalt :=
  ⟨⟨rfl, rfl, rfl, rfl⟩, rfl, rfl⟩

/-- Settles O28: the shared operand checks raise the halt, whatever the effect they guard. -/
theorem badRegisterHalts : Obligations.BadRegisterHalts := by
  refine fun s b c => ⟨fun hb => ⟨?_, ?_⟩, fun hbc => ⟨?_, ?_, ?_⟩⟩
  · exact ⟨_, onReg_bad hb s _, s.raiseHalt_haltedAt⟩
  · exact ⟨_, onReg_bad hb s _, s.raiseHalt_haltedAt⟩
  · exact ⟨_, onRegs_bad hbc s _, s.raiseHalt_haltedAt⟩
  · exact ⟨_, onRegs_bad hbc s _, s.raiseHalt_haltedAt⟩
  · exact ⟨_, onRegs_bad hbc s _, s.raiseHalt_haltedAt⟩

end Sys2Proof.Machine
end

section
/-! PROOFS. The statements about the assembler's passes (`30_encoding.md` R63, R65, R70): the length of the image, and
duplicate labels. -/
namespace Sys2Proof.Machine

/-! ### The length of the image (R65, R70) -/

/-- A line's operand tokens emit one byte each. -/
theorem resolveAll_length {labels : LabelTable} {toks : List Text} {bs : List Byte}
    (h : resolveAll labels toks = .ok bs) : bs.length = toks.length := by
  induction toks generalizing bs with
  | nil => cases h; rfl
  | cons token toks ih =>
    unfold resolveAll at h
    split at h
    · cases h
    · split at h
      · cases h
      · next htoks => cases h; simp [ih htoks]

/-- An instruction line emits one byte for each token. -/
theorem emitLine_length {m : OpcodeMap} {labels : LabelTable} {toks : List Text} {bs : List Byte}
    (h : emitLine m labels toks = .ok bs) : bs.length = toks.length := by
  unfold emitLine at h
  split at h
  · cases h; rfl
  · split at h
    · cases h
    · split at h
      · cases h
      · next htoks => cases h; simp [resolveAll_length htoks]

/-- Pass 1 counts the bytes that pass 2 emits, whatever table pass 2 is given. -/
theorem pass2_length {m : OpcodeMap} {final labels labels' : LabelTable} {lines : List SourceLine} {c c' : Nat}
    {image : List Byte} (h1 : pass1 lines c labels = .ok (labels', c')) (h2 : pass2 m final lines = .ok image) :
    c' = c + image.length := by
  induction lines generalizing c labels image with
  | nil => cases h1; cases h2; rfl
  | cons line lines ih =>
    cases line with
    | label name =>
      unfold pass1 at h1
      split at h1
      · cases h1
      · exact ih h1 h2
    | instr toks =>
      unfold pass2 at h2
      split at h2
      · cases h2
      · next bs hline =>
        split at h2
        · cases h2
        · next rest hrest =>
          cases h2
          rw [ih h1 hrest, List.length_append, emitLine_length hline, Nat.add_assoc]

/-- Settles O54: pass 1 precedes pass 2, so it succeeded, and it counts one byte for each token. -/
theorem imageLengthIsCounter : Obligations.ImageLengthIsCounter := by
  intro m source image h
  unfold assemble at h
  split at h
  · cases h
  · next labels c h1 => exact ⟨labels, by rw [h1, pass2_length h1 h, Nat.zero_add]⟩

/-! ### Duplicate labels (R63) -/

theorem labelAddress_cons_self (labels : LabelTable) (name : Text) (a : Nat) :
    labelAddress ((name, a) :: labels) name = some a := by
  simp [labelAddress]

/-- A name in the table stays in it when an entry is added. -/
theorem labelAddress_cons_isSome {labels : LabelTable} {name : Text} (h : (labelAddress labels name).isSome = true)
    (entry : Text × Nat) : (labelAddress (entry :: labels) name).isSome = true := by
  by_cases he : entry.1 = name
  · simp [labelAddress, he]
  · simpa [labelAddress, he] using h

/-- Pass 1 fails at or before the declaration of a label that the table holds already. -/
theorem pass1_of_declared {name : Text} {lines : List SourceLine} (hl : .label name ∈ lines) {labels : LabelTable}
    (hn : (labelAddress labels name).isSome = true) (c : Nat) :
    ∃ dup, pass1 lines c labels = .error (.duplicateLabel dup) := by
  induction lines generalizing c labels with
  | nil => cases hl
  | cons line lines ih =>
    cases line with
    | label other =>
      unfold pass1
      split
      · exact ⟨other, rfl⟩
      · next hnew =>
        have hne : SourceLine.label name ≠ .label other := by rintro ⟨⟩; exact hnew hn
        exact ih (List.mem_of_ne_of_mem hne hl) (labelAddress_cons_isSome hn _) c
    | instr toks => exact ih (List.mem_of_ne_of_mem (by simp) hl) hn _

/-- Pass 1 fails on lines that declare a label twice. -/
theorem pass1_of_duplicate {name : Text} {before lines : List SourceLine} (hl : .label name ∈ lines) (c : Nat)
    (labels : LabelTable) :
    ∃ dup, pass1 (before ++ .label name :: lines) c labels = .error (.duplicateLabel dup) := by
  induction before generalizing c labels with
  | nil =>
    simp only [List.nil_append, pass1]
    split
    · exact ⟨name, rfl⟩
    · exact pass1_of_declared hl (by rw [labelAddress_cons_self]; rfl) c
  | cons line before ih =>
    cases line with
    | label other =>
      simp only [List.cons_append, pass1]
      split
      · exact ⟨other, rfl⟩
      · exact ih c _
    | instr toks => exact ih _ labels

/-- Settles O55: at the second declaration, if not before, pass 1 meets a name its table holds. -/
theorem duplicateLabelFails : Obligations.DuplicateLabelFails := by
  intro m source name before between after h
  have hl : SourceLine.label name ∈ between ++ .label name :: after := by simp
  obtain ⟨dup, hd⟩ := pass1_of_duplicate (before := before) hl 0 []
  refine ⟨dup, ?_⟩
  rw [assemble, h, List.append_assoc, List.cons_append, hd]

end Sys2Proof.Machine
end

section
/-! PROOFS. The statements about source text (`30_encoding.md` R62 to R74): register names resolve first, and a program
in source form, one instruction a line, assembles to the bytes of its instructions. -/
namespace Sys2Proof.Machine

/-! ### Digits, names and spellings (R67 to R71) -/

/-- A hexadecimal digit reads as its value. -/
theorem hexDigitValue_hexDigit {n : Nat} (h : n < 16) : hexDigitValue (hexDigit n) = some n := by
  interval_cases n <;> decide

theorem hexDigit_ne_comma {n : Nat} (h : n < 16) : ',' ≠ hexDigit n := by
  interval_cases n <;> decide

theorem registerByte_registerName {b : Byte} (h : b.toNat < 4) : registerByte (registerName b) = some b := by
  revert b
  decide

/-- No mnemonic is spelled as another. -/
theorem mnemonicOf_mnemonicSpelling (k : Mnemonic) : mnemonicOf (mnemonicSpelling k) = some k := by
  cases k <;> decide

/-- A `0x` number of two digits reads as its byte. -/
theorem digitsValue_hexByte (b : Byte) :
    digitsValue hexDigitValue 16 0 [hexDigit (b.toNat / 16), hexDigit (b.toNat % 16)] = some b.toNat := by
  have hb : b.toNat < 256 := b.isLt
  have hhigh := hexDigitValue_hexDigit (n := b.toNat / 16) (by omega)
  have hlow := hexDigitValue_hexDigit (n := b.toNat % 16) (by omega)
  simp only [digitsValue, hhigh, hlow, Option.some.injEq]
  omega

theorem comma_not_mem_registerName {b : Byte} (h : b.toNat < 4) : ',' ∉ registerName b := by
  have hd : ',' ≠ hexDigit b.toNat := hexDigit_ne_comma (by omega)
  simp [registerName, hd]

theorem comma_not_mem_hexByte (b : Byte) : ',' ∉ hexByte b := by
  have hb : b.toNat < 256 := b.isLt
  have hhigh := hexDigit_ne_comma (n := b.toNat / 16) (by omega)
  have hlow := hexDigit_ne_comma (n := b.toNat % 16) (by omega)
  simp [hexByte, hhigh, hlow]

/-! ### Operand tokens (R64, R68) -/

/-- A trailing comma is taken off. -/
theorem stripComma_append_comma (t : Text) : stripComma (t ++ [',']) = t := by
  simp [stripComma]

/-- A token without a comma keeps all its characters. -/
theorem stripComma_of_not_mem {t : Text} (h : ',' ∉ t) : stripComma t = t :=
  if_neg fun hlast => h (List.mem_of_getLast? hlast)

/-- A `0x` number resolves to its byte, whatever labels there are. -/
theorem resolveStripped_hexByte (labels : LabelTable) (b : Byte) : resolveStripped labels (hexByte b) = .ok b := by
  have hb : b.toNat ≤ 255 := Nat.le_of_lt_succ b.isLt
  have hreg : registerByte (hexByte b) = none := by simp [registerByte, hexByte]
  have hval := digitsValue_hexByte b
  simp only [resolveStripped, hreg]
  simp [hexByte, hval, byteOfValue, hb]

theorem resolveStripped_registerName (labels : LabelTable) {b : Byte} (h : b.toNat < 4) :
    resolveStripped labels (registerName b) = .ok b := by
  simp [resolveStripped, registerByte_registerName h]

theorem resolveOperand_of_not_mem (labels : LabelTable) {t : Text} (h : ',' ∉ t) :
    resolveOperand labels t = resolveStripped labels t := by
  rw [resolveOperand, stripComma_of_not_mem h]

/-- One trailing comma changes nothing. -/
theorem resolveOperand_append_comma (labels : LabelTable) (t : Text) :
    resolveOperand labels (t ++ [',']) = resolveStripped labels t := by
  rw [resolveOperand, stripComma_append_comma]

theorem resolveOperand_registerName (labels : LabelTable) {b : Byte} (h : b.toNat < 4) :
    resolveOperand labels (registerName b) = .ok b := by
  rw [resolveOperand_of_not_mem labels (comma_not_mem_registerName h), resolveStripped_registerName labels h]

theorem resolveOperand_registerName_comma (labels : LabelTable) {b : Byte} (h : b.toNat < 4) :
    resolveOperand labels (registerName b ++ [',']) = .ok b := by
  rw [resolveOperand_append_comma, resolveStripped_registerName labels h]

theorem resolveOperand_hexByte (labels : LabelTable) (b : Byte) : resolveOperand labels (hexByte b) = .ok b := by
  rw [resolveOperand_of_not_mem labels (comma_not_mem_hexByte b), resolveStripped_hexByte]

/-- Settles O56: a register name is tried before the label table is looked at, and a trailing comma is taken off. -/
theorem registerNamesResolveFirst : Obligations.RegisterNamesResolveFirst :=
  fun labels _ h => ⟨resolveOperand_registerName labels h, resolveOperand_registerName_comma labels h⟩

/-! ### Words: tokens that the line parser takes whole -/

/-- A character that stands in a token and opens neither a comment nor a label's end. -/
def isPlain (c : Char) : Bool := !c.isWhitespace && c != '#' && c != ':'

/-- A token that the line parser takes whole, wherever it stands in an instruction line. -/
structure IsWord (t : Text) : Prop where
  ne_nil : t ≠ []
  plain : ∀ c ∈ t, isPlain c = true

theorem isPlain_hexDigit {n : Nat} (h : n < 16) : isPlain (hexDigit n) = true := by
  interval_cases n <;> decide

theorem isWord_mnemonicSpelling (k : Mnemonic) : IsWord (mnemonicSpelling k) := by
  have hne : mnemonicSpelling k ≠ [] := by cases k <;> simp [mnemonicSpelling]
  have hplain : (mnemonicSpelling k).all isPlain = true := by cases k <;> rfl
  exact ⟨hne, List.all_eq_true.mp hplain⟩

theorem isWord_registerName {b : Byte} (h : b.toNat < 4) : IsWord (registerName b) := by
  have hR : isPlain 'R' = true := rfl
  have hd : isPlain (hexDigit b.toNat) = true := isPlain_hexDigit (by omega)
  exact ⟨by simp [registerName], by simp [registerName, hR, hd]⟩

theorem isWord_hexByte (b : Byte) : IsWord (hexByte b) := by
  have hb : b.toNat < 256 := b.isLt
  have h0 : isPlain '0' = true := rfl
  have hx : isPlain 'x' = true := rfl
  have hhigh := isPlain_hexDigit (n := b.toNat / 16) (by omega)
  have hlow := isPlain_hexDigit (n := b.toNat % 16) (by omega)
  exact ⟨by simp [hexByte], by simp [hexByte, h0, hx, hhigh, hlow]⟩

theorem IsWord.append_comma {t : Text} (h : IsWord t) : IsWord (t ++ [',']) := by
  refine ⟨by simp, fun c hmem => ?_⟩
  obtain hmem | hmem := List.mem_append.mp hmem
  · exact h.plain c hmem
  · rw [List.mem_singleton.mp hmem]
    rfl

theorem IsWord.not_isWhitespace {t : Text} (h : IsWord t) {c : Char} (hc : c ∈ t) : c.isWhitespace = false := by
  have hp := h.plain c hc
  simp only [isPlain, Bool.and_eq_true, Bool.not_eq_true'] at hp
  obtain ⟨⟨hblank, -⟩, -⟩ := hp
  exact hblank

/-! ### The tokens of an instruction's source form (R64, R74) -/

/-- The operand tokens of an instruction in source form. -/
def operandTokens : Instr → List Text
  | .nop | .halt => []
  | .load reg addr | .store reg addr => [registerName reg ++ [','], hexByte addr]
  | .add reg1 reg2 | .sub reg1 reg2 | .cmp reg1 reg2 => [registerName reg1 ++ [','], registerName reg2]
  | .jump addr | .jeq addr | .jne addr => [hexByte addr]

/-- The tokens of an instruction in source form. -/
def sourceTokens (i : Instr) : List Text := mnemonicSpelling i.mnemonic :: operandTokens i

/-- The source form is the tokens with one blank between any two. -/
theorem sourceForm_eq_intercalate (i : Instr) : sourceForm i = [' '].intercalate (sourceTokens i) := by
  cases i <;> simp [sourceForm, sourceTokens, operandTokens, Instr.mnemonic, List.intercalate_cons_cons]

/-- The operand tokens of a well-formed instruction are words. -/
theorem isWord_operandTokens {i : Instr} (hi : i.wellFormed = true) : ∀ t ∈ operandTokens i, IsWord t := by
  rw [Instr.wellFormed_iff] at hi
  cases i with
  | nop | halt => simp [operandTokens]
  | load reg addr | store reg addr =>
    have hreg : IsWord (registerName reg) := isWord_registerName (hi reg (by simp [Instr.registerOperands]))
    simp [operandTokens, hreg.append_comma, isWord_hexByte]
  | add reg1 reg2 | sub reg1 reg2 | cmp reg1 reg2 =>
    have hreg1 : IsWord (registerName reg1) := isWord_registerName (hi reg1 (by simp [Instr.registerOperands]))
    have hreg2 : IsWord (registerName reg2) := isWord_registerName (hi reg2 (by simp [Instr.registerOperands]))
    simp [operandTokens, hreg1.append_comma, hreg2]
  | jump addr | jeq addr | jne addr => simp [operandTokens, isWord_hexByte]

theorem isWord_sourceTokens {i : Instr} (hi : i.wellFormed = true) : ∀ t ∈ sourceTokens i, IsWord t :=
  List.forall_mem_cons.mpr ⟨isWord_mnemonicSpelling _, isWord_operandTokens hi⟩

/-- The operand tokens of a well-formed instruction resolve to its operand bytes. -/
theorem resolveAll_operandTokens (labels : LabelTable) {i : Instr} (hi : i.wellFormed = true) :
    resolveAll labels (operandTokens i) = .ok i.operandBytes := by
  rw [Instr.wellFormed_iff] at hi
  cases i with
  | nop | halt => rfl
  | load reg addr | store reg addr =>
    have hreg : reg.toNat < 4 := hi reg (by simp [Instr.registerOperands])
    simp [operandTokens, resolveAll, resolveOperand_registerName_comma labels hreg, resolveOperand_hexByte,
      Instr.operandBytes]
  | add reg1 reg2 | sub reg1 reg2 | cmp reg1 reg2 =>
    have hreg1 : reg1.toNat < 4 := hi reg1 (by simp [Instr.registerOperands])
    have hreg2 : reg2.toNat < 4 := hi reg2 (by simp [Instr.registerOperands])
    simp [operandTokens, resolveAll, resolveOperand_registerName_comma labels hreg1,
      resolveOperand_registerName labels hreg2, Instr.operandBytes]
  | jump addr | jeq addr | jne addr =>
    simp [operandTokens, resolveAll, resolveOperand_hexByte, Instr.operandBytes]

/-- The tokens of a well-formed instruction emit its encoding. -/
theorem emitLine_sourceTokens (m : OpcodeMap) (labels : LabelTable) {i : Instr} (hi : i.wellFormed = true) :
    emitLine m labels (sourceTokens i) = .ok (encode m i) := by
  simp [emitLine, sourceTokens, mnemonicOf_mnemonicSpelling, resolveAll_operandTokens labels hi, encode]

/-! ### Words with a blank between any two (R62, R64) -/

theorem tokensFrom_word {w : Text} (hw : ∀ c ∈ w, c.isWhitespace = false) : tokensFrom w = (w, []) := by
  induction w with
  | nil => rfl
  | cons c cs ih =>
    obtain ⟨hc, hcs⟩ := List.forall_mem_cons.mp hw
    simp [tokensFrom, hc, ih hcs]

/-- The first white space ends the first token. -/
theorem tokensFrom_word_blank {w : Text} (hw : ∀ c ∈ w, c.isWhitespace = false) (rest : Text) :
    tokensFrom (w ++ ' ' :: rest) = (w, tokens rest) := by
  induction w with
  | nil => rfl
  | cons c cs ih =>
    obtain ⟨hc, hcs⟩ := List.forall_mem_cons.mp hw
    simp [tokensFrom, hc, ih hcs]

/-- Words with a blank between any two are parted into the words. -/
theorem tokens_intercalate {ws : List Text} (hws : ∀ w ∈ ws, IsWord w) : tokens ([' '].intercalate ws) = ws := by
  induction ws with
  | nil => rfl
  | cons w ws ih =>
    obtain ⟨hw, hrest⟩ := List.forall_mem_cons.mp hws
    cases ws with
    | nil => simp [tokens, tokensFrom_word fun _ => hw.not_isWhitespace, hw.ne_nil]
    | cons w' ws =>
      rw [List.intercalate_cons_cons, List.append_assoc, List.singleton_append, tokens,
        tokensFrom_word_blank fun _ => hw.not_isWhitespace, ih hrest, if_neg hw.ne_nil]

/-- The characters between the first and last word are blanks and plain ones. -/
theorem mem_intercalate {ws : List Text} (hws : ∀ w ∈ ws, IsWord w) {c : Char} (hc : c ∈ [' '].intercalate ws) :
    c = ' ' ∨ isPlain c = true := by
  induction ws with
  | nil => cases hc
  | cons w ws ih =>
    obtain ⟨hw, hrest⟩ := List.forall_mem_cons.mp hws
    cases ws with
    | nil => exact .inr (hw.plain c (by simpa using hc))
    | cons w' ws =>
      rw [List.intercalate_cons_cons, List.append_assoc, List.mem_append, List.mem_append, List.mem_singleton] at hc
      obtain hc | hc | hc := hc
      · exact .inr (hw.plain c hc)
      · exact .inl hc
      · exact ih hrest hc

/-- Neither a newline, nor the start of a comment, nor a colon stands among words. -/
theorem not_mem_intercalate {ws : List Text} (hws : ∀ w ∈ ws, IsWord w) {c : Char} (hc : c = '\n' ∨ c = '#' ∨ c = ':') :
    c ∉ [' '].intercalate ws := by
  intro hmem
  have h := mem_intercalate hws hmem
  obtain rfl | rfl | rfl := hc <;> revert h <;> decide

theorem intercalate_ne_nil {w : Text} (hw : w ≠ []) (ws : List Text) : [' '].intercalate (w :: ws) ≠ [] := by
  cases ws with
  | nil => simpa using hw
  | cons w' ws => simp [List.intercalate_cons_cons]

/-- Words with a blank between any two begin with the first word. -/
theorem head?_intercalate {ws : List Text} (hws : ∀ w ∈ ws, IsWord w) :
    ∀ c ∈ ([' '].intercalate ws).head?, c.isWhitespace = false := by
  intro c hc
  cases ws with
  | nil => cases hc
  | cons w ws =>
    obtain ⟨hw, -⟩ := List.forall_mem_cons.mp hws
    cases ws with
    | nil => exact hw.not_isWhitespace (List.mem_of_mem_head? (by simpa using hc))
    | cons w' ws =>
      rw [List.intercalate_cons_cons, List.append_assoc, List.head?_append_of_ne_nil _ hw.ne_nil] at hc
      exact hw.not_isWhitespace (List.mem_of_mem_head? hc)

/-- Words with a blank between any two end with the last word. -/
theorem getLast?_intercalate {ws : List Text} (hws : ∀ w ∈ ws, IsWord w) :
    ∀ c ∈ ([' '].intercalate ws).getLast?, c.isWhitespace = false := by
  intro c hc
  induction ws with
  | nil => cases hc
  | cons w ws ih =>
    obtain ⟨hw, hrest⟩ := List.forall_mem_cons.mp hws
    cases ws with
    | nil => exact hw.not_isWhitespace (List.mem_of_getLast? (by simpa using hc))
    | cons w' ws =>
      obtain ⟨hw', -⟩ := List.forall_mem_cons.mp hrest
      rw [List.intercalate_cons_cons, List.getLast?_append_of_ne_nil _ (intercalate_ne_nil hw'.ne_nil ws)] at hc
      exact ih hrest hc

/-! ### Lines (R62 to R64) -/

theorem dropWhile_isWhitespace_eq_self {t : Text} (h : ∀ c ∈ t.head?, c.isWhitespace = false) :
    t.dropWhile Char.isWhitespace = t := by
  cases t with
  | nil => rfl
  | cons c cs => simp [h c rfl]

/-- Trimming keeps a text with no white space at its ends. -/
theorem trim_eq_self {t : Text} (hfirst : ∀ c ∈ t.head?, c.isWhitespace = false)
    (hlast : ∀ c ∈ t.getLast?, c.isWhitespace = false) : trim t = t := by
  have hrev : ∀ c ∈ t.reverse.head?, c.isWhitespace = false := by rwa [List.head?_reverse]
  rw [trim, dropWhile_isWhitespace_eq_self hfirst, dropWhile_isWhitespace_eq_self hrev, List.reverse_reverse]

/-- A newline ends the first line. -/
theorem splitLines_append_newline {line : Text} (h : '\n' ∉ line) (rest : Text) :
    splitLines (line ++ '\n' :: rest) = line :: splitLines rest := by
  induction line with
  | nil => simp [splitLines]
  | cons c cs ih =>
    obtain ⟨hc, hcs⟩ := not_or.mp (List.mem_cons.not.mp h)
    simp [splitLines, Ne.symm hc, ih hcs]

/-- A line of words has no comment and no white space at its ends. -/
theorem cleanLine_intercalate {ws : List Text} (hws : ∀ w ∈ ws, IsWord w) :
    cleanLine ([' '].intercalate ws) = [' '].intercalate ws := by
  have htake : ([' '].intercalate ws).takeWhile (fun c => c ≠ '#') = [' '].intercalate ws :=
    List.takeWhile_eq_self_iff.mpr fun c hc =>
      decide_eq_true fun he => not_mem_intercalate hws (.inr (.inl he)) hc
  rw [cleanLine, htake, trim_eq_self (head?_intercalate hws) (getLast?_intercalate hws)]

/-- A line of words is an instruction line with these tokens. -/
theorem parseLine_intercalate {ws : List Text} (hws : ∀ w ∈ ws, IsWord w) :
    parseLine ([' '].intercalate ws) = .instr ws := by
  rw [parseLine, if_neg (not_mem_intercalate hws (.inr (.inr rfl))), tokens_intercalate hws]

/-- A line of words at the head of a source is an instruction line with these tokens. -/
theorem sourceLines_intercalate_newline {w : Text} {ws : List Text} (hws : ∀ t ∈ w :: ws, IsWord t) (rest : Text) :
    sourceLines ([' '].intercalate (w :: ws) ++ '\n' :: rest) = .instr (w :: ws) :: sourceLines rest := by
  obtain ⟨hw, -⟩ := List.forall_mem_cons.mp hws
  simp [sourceLines, splitLines_append_newline (not_mem_intercalate hws (.inl rfl)), cleanLine_intercalate hws,
    intercalate_ne_nil hw.ne_nil ws, parseLine_intercalate hws]

/-! ### Programs in source form (R74) -/

/-- The lines of a correct program are the tokens of its instructions. -/
theorem sourceLines_programSource {is : List Instr} (his : ∀ i ∈ is, i.wellFormed = true) :
    sourceLines (programSource is) = is.map fun i => .instr (sourceTokens i) := by
  induction is with
  | nil => rfl
  | cons i is ih =>
    obtain ⟨hi, hrest⟩ := List.forall_mem_cons.mp his
    rw [programSource, sourceForm_eq_intercalate, List.append_assoc, List.singleton_append, sourceTokens,
      sourceLines_intercalate_newline (isWord_sourceTokens hi), ih hrest]
    rfl

/-- Pass 1 of a program's lines succeeds and declares nothing. -/
theorem pass1_sourceTokens (is : List Instr) (c : Nat) (labels : LabelTable) :
    ∃ c', pass1 (is.map fun i => .instr (sourceTokens i)) c labels = .ok (labels, c') := by
  induction is generalizing c with
  | nil => exact ⟨c, rfl⟩
  | cons i is ih => exact ih _

/-- Pass 2 of a correct program's lines emits the encodings in order, whatever labels there are. -/
theorem pass2_sourceTokens (m : OpcodeMap) (labels : LabelTable) {is : List Instr}
    (his : ∀ i ∈ is, i.wellFormed = true) :
    pass2 m labels (is.map fun i => .instr (sourceTokens i)) = .ok (is.flatMap (encode m)) := by
  induction is with
  | nil => rfl
  | cons i is ih =>
    obtain ⟨hi, hrest⟩ := List.forall_mem_cons.mp his
    simp [pass2, emitLine_sourceTokens m labels hi, ih hrest]

/-- Settles O53: each source line is parted into its instruction's tokens, and they emit its encoding. -/
theorem sourceFormAssembles : Obligations.SourceFormAssembles := by
  intro m is his
  obtain ⟨c, hc⟩ := pass1_sourceTokens is 0 []
  rw [assemble, sourceLines_programSource his, hc]
  exact pass2_sourceTokens m [] his

end Sys2Proof.Machine
end

section
/-! PROOFS. The statements about fetch, cycle and run (`40_cycle.md` R80 to R90): the fetches bring the bytes from pc
on, continued past the end of memory by HALT's opcode; what `run` does is said once about its loop, by induction over the
budget. -/
namespace Sys2Proof.Machine

/-! ### One fetch (R80) -/

/-- Settles O18: the two branches of the fetch, below the end of memory and at it. -/
theorem fetchRule : Obligations.FetchRule := by
  rintro m ⟨-, -, -, -, hhalt, -⟩ s
  refine ⟨fun hp => ?_, fun hp => ?_⟩
  · rw [fetch_of_lt hp]
    exact ⟨rfl, ⟨rfl, rfl, rfl, rfl⟩, pcSucc_val hp, rfl⟩
  · rw [fetch_of_end (by omega)]
    exact ⟨hhalt, hp ▸ s.raiseHalt_haltedAt⟩

/-! ### Several fetches, inside memory and past its end (R81, R85) -/

/-- The bytes `n` fetches bring: those of memory from pc on, then HALT's opcode for each fetch out of bounds. -/
theorem fetchBytes_bytes (m : OpcodeMap) {n j : Nat} {s : State} (h : s.pc.val + n ≤ 256 + j) :
    (fetchBytes m n s).1 = (s.memoryFrom s.pc.val ++ List.replicate j (m .halt)).take n := by
  induction n generalizing s j with
  | zero => rfl
  | succ n ih =>
    by_cases hp : s.pc.val < 256
    · have hpc := pcSucc_val hp
      rw [fetchBytes, fetch_of_lt hp, s.memoryFrom_cons hp]
      rw [ih (s := s.setPc (pcSucc s.pc)) (j := j) (by rw [State.setPc_pc, hpc]; omega), State.setPc_pc, hpc]
      rfl
    · obtain ⟨j, rfl⟩ : ∃ k, j = k + 1 := ⟨j - 1, by omega⟩
      rw [fetchBytes, fetch_of_end hp, ih (s := s.raiseHalt) (j := j) (by rw [State.raiseHalt_pc]; omega),
        State.raiseHalt_pc, State.memoryFrom_end _ (by omega), State.memoryFrom_end _ (by omega)]
      rfl

/-- Fetches that stay inside memory move pc and do nothing else. -/
theorem fetchBytes_state_inside (m : OpcodeMap) {n : Nat} {s : State} (h : s.pc.val + n < 257) :
    (fetchBytes m n s).2 = s.setPc ⟨s.pc.val + n, h⟩ := by
  induction n generalizing s with
  | zero => rfl
  | succ n ih =>
    have hpc : (pcSucc s.pc).val = s.pc.val + 1 := pcSucc_val (by omega)
    rw [fetchBytes, fetch_of_lt (by omega), ih (by rw [State.setPc_pc, hpc]; omega)]
    simp [State.setPc, hpc, Nat.add_assoc, Nat.add_comm 1]

/-- Fetches that go past the end of memory leave the core Halted with pc at 256, and do nothing else. -/
theorem fetchBytes_state_past (m : OpcodeMap) {n : Nat} {s : State} (h : 256 < s.pc.val + n) :
    (fetchBytes m n s).2 = (s.setPc 256).raiseHalt := by
  induction n generalizing s with
  | zero => have := s.pc.isLt; omega
  | succ n ih =>
    by_cases hp : s.pc.val < 256
    · rw [fetchBytes, fetch_of_lt hp, ih (by rw [State.setPc_pc, pcSucc_val hp]; omega)]
      rfl
    · have hpc : s.pc = 256 := Fin.ext (show s.pc.val = 256 by omega)
      rw [fetchBytes, fetch_of_end hp]
      cases n with
      | zero => simp [fetchBytes, State.raiseHalt, State.setPc, ← hpc]
      | succ n => rw [ih (by rw [State.raiseHalt_pc]; omega)]; rfl

/-! ### The step of a decoded instruction (R81 to R86) -/

theorem stepWith_running (m : OpcodeMap) {s : State} (h : s.running = true) : stepWith m s = cycle m s := if_pos h

theorem stepWith_halted (m : OpcodeMap) {s : State} (h : s.running = false) : stepWith m s = .next s :=
  if_neg (by simp [h])

/-- Fetching an instruction decodes the bytes fetched. -/
theorem fetchInstr_eq (m : OpcodeMap) (s : State) :
    fetchInstr m s =
      ((decode m (fetchBytes m (operandCountOf m (fetch m s).1 + 1) s).1).map Prod.fst,
        (fetchBytes m (operandCountOf m (fetch m s).1 + 1) s).2) := rfl

theorem encode_length (m : OpcodeMap) (i : Instr) :
    (encode m i).length = i.mnemonic.format.operandCount + 1 := by
  rw [encode, List.length_cons, Instr.operandBytes_length]

/-- The bytes of an instruction decoded from pc on and those left are the bytes from pc on, the two added among them. -/
theorem encode_length_of_decode {m : OpcodeMap} {s : State} {i : Instr} {rest : List Byte}
    (h : decode m (s.memoryFrom s.pc.val ++ [m .halt, m .halt]) = .ok (i, rest)) :
    s.pc.val + (encode m i).length + rest.length = 258 := by
  have hlen := congrArg List.length (decodeThenEncode m _ _ _ h)
  simp only [List.length_append, State.memoryFrom_length, List.length_cons, List.length_nil] at hlen
  have hpc := s.pc.isLt
  omega

/-- An instruction at the head of the bytes from pc on, continued by HALT's opcode, is the one fetched, with as many
fetches as it has bytes. -/
theorem fetchInstr_of_decode {m : OpcodeMap} (hm : Function.Injective m) {s : State} {i : Instr} {rest : List Byte}
    (h : decode m (s.memoryFrom s.pc.val ++ [m .halt, m .halt]) = .ok (i, rest)) :
    fetchInstr m s = (.ok i, (fetchBytes m (encode m i).length s).2) := by
  have hlen := encode_length_of_decode h
  have hfetched : (fetchBytes m (encode m i).length s).1 = encode m i := by
    calc (fetchBytes m (encode m i).length s).1
      _ = (s.memoryFrom s.pc.val ++ [m .halt, m .halt]).take (encode m i).length :=
        fetchBytes_bytes m (j := 2) (by omega)
      _ = encode m i := by rw [decodeThenEncode m _ _ _ h, List.take_left]
  have hop : (fetch m s).1 = m i.mnemonic := by
    rw [encode_length] at hfetched
    exact (List.cons.inj hfetched).1
  have hdecode : decode m (encode m i) = .ok (i, []) := by simpa using encodeThenDecode m hm i []
  rw [fetchInstr_eq, hop, operandCountOf_self hm, ← encode_length m, hfetched, hdecode]
  rfl

/-- The step of a Running core at an instruction executes it on the state after its fetches. -/
theorem stepWith_of_decode {m : OpcodeMap} (hm : Function.Injective m) {s : State} (hr : s.running = true) {i : Instr}
    {rest : List Byte} (h : decode m (s.memoryFrom s.pc.val ++ [m .halt, m .halt]) = .ok (i, rest)) :
    stepWith m s = exec i (fetchBytes m (encode m i).length s).2 := by
  rw [stepWith_running m hr, cycle_of_fetch (fetchInstr_of_decode hm h)]

/-- An instruction that uses neither added byte stands in memory whole, and is executed with pc past it. -/
theorem stepWith_of_decode_inside {m : OpcodeMap} (hm : Function.Injective m) {s : State} (hr : s.running = true)
    {i : Instr} {rest : List Byte} (h : decode m (s.memoryFrom s.pc.val ++ [m .halt, m .halt]) = .ok (i, rest))
    (hrest : 2 ≤ rest.length) :
    ∃ hp : 258 - rest.length < 257, stepWith m s = exec i (s.setPc ⟨258 - rest.length, hp⟩) := by
  have hlen := encode_length_of_decode h
  refine ⟨by omega, ?_⟩
  rw [stepWith_of_decode hm hr h, fetchBytes_state_inside m (by omega)]
  congr 3
  omega

/-- An instruction that uses an added byte is executed Halted with pc at 256, and its cycle reports FETCH_OOB (R85, R86,
R148). -/
theorem stepWith_of_decode_past {m : OpcodeMap} (hm : Function.Injective m) {s : State} (hr : s.running = true)
    {i : Instr} {rest : List Byte} (h : decode m (s.memoryFrom s.pc.val ++ [m .halt, m .halt]) = .ok (i, rest))
    (hrest : rest.length < 2) :
    stepWith m s = exec i (s.setPc 256).raiseHalt ∧ cycleOutcome m s = .errorHalt .fetchOob := by
  have hlen := encode_length_of_decode h
  have hstate := fetchBytes_state_past m (n := (encode m i).length) (s := s) (by omega)
  refine ⟨by rw [stepWith_of_decode hm hr h, hstate], cycleOutcome_oob ?_⟩
  rw [fetchInstr_of_decode hm h, hstate, State.raiseHalt_running]

/-- Settles O20: HALT's opcode is the byte 0xFF, which every fetch out of bounds brings. -/
theorem stepPastTheEnd : Obligations.StepPastTheEnd := by
  rintro m ⟨hinj, -, -, -, hhalt, -⟩ s i rest hr - h
  rw [← hhalt] at h
  exact ⟨stepWith_of_decode_inside hinj hr h, stepWith_of_decode_past hinj hr h⟩

/-- Settles O21: at 256 memory brings nothing, so that HALT is decoded from the added bytes. -/
theorem opcodeFetchAtTheEnd : Obligations.OpcodeFetchAtTheEnd := by
  rintro m ⟨hinj, -⟩ s hr hp
  have hdecode : decode m (s.memoryFrom s.pc.val ++ [m .halt, m .halt]) = .ok (.halt, [m .halt]) := by
    rw [State.memoryFrom_end s hp.ge]
    exact encodeThenDecode m hinj .halt [m .halt]
  obtain ⟨hstep, hout⟩ := stepWith_of_decode_past hinj hr hdecode Nat.one_lt_two
  exact ⟨_, ⟨hstep, hout⟩, ⟨rfl, rfl, rfl, rfl⟩, rfl, rfl⟩

/-- Settles O19: bytes added after those of memory are left over by the decoder. -/
theorem stepRunsDecoded : Obligations.StepRunsDecoded := by
  intro s i rest hr h
  have hinj := defaultOpcodeMap_admissible.1
  have hdecode : decode defaultOpcodeMap (s.memoryFrom s.pc.val ++ [defaultOpcodeMap .halt, defaultOpcodeMap .halt]) =
      .ok (i, rest ++ [defaultOpcodeMap .halt, defaultOpcodeMap .halt]) := by
    rw [decodeThenEncode _ _ _ _ h, List.append_assoc]
    exact encodeThenDecode _ hinj i _
  simpa [step] using stepWith_of_decode_inside hinj hr hdecode (by simp)

/-! ### The loop of run (R87, R88) -/

/-- The loop on a Halted core executes no cycle. -/
theorem runLoop_halted (m : OpcodeMap) (n done : Nat) {s : State} (h : s.running = false) :
    runLoop m n done s = .next (s, done) := by
  cases n <;> simp [runLoop, h]

/-- The loop on a Running core executes one cycle, counts it and goes on. -/
theorem runLoop_running {m : OpcodeMap} (n done : Nat) {s t : State} (h : s.running = true)
    (hc : cycle m s = .next t) : runLoop m (n + 1) done s = runLoop m n (done + 1) t := by
  simp [runLoop, h, hc]

/-- All a core can be at the head of the loop: Halted, or Running with a cycle to execute. -/
theorem halted_or_cycle (m : OpcodeMap) (s : State) :
    s.running = false ∨ s.running = true ∧ ∃ t, cycle m s = .next t := by
  cases s.running with
  | false => exact .inl rfl
  | true => exact .inr ⟨rfl, cycle_answers m s⟩

/-- The loop answers within its budget, and only a spent budget leaves the core Running. -/
theorem runLoop_answers (m : OpcodeMap) (n done : Nat) (s : State) :
    ∃ t c, runLoop m n done s = .next (t, c) ∧ c ≤ done + n ∧ (t.running = true → c = done + n) := by
  induction n generalizing done s with
  | zero => exact ⟨s, done, rfl, le_refl _, fun _ => rfl⟩
  | succ n ih =>
    obtain hr | ⟨hr, u, hu⟩ := halted_or_cycle m s
    · exact ⟨s, done, runLoop_halted m _ _ hr, Nat.le_add_right .., by simp [hr]⟩
    · obtain ⟨t, c, ht, hle, heq⟩ := ih (done + 1) u
      exact ⟨t, c, by rw [runLoop_running n done hr hu, ht], by omega, fun hrun => by have := heq hrun; omega⟩

/-- Cycles counted before the loop add to its count and change nothing else. -/
theorem runLoop_offset {m : OpcodeMap} {n done c : Nat} {s t : State} (h : runLoop m n done s = .next (t, c))
    (e : Nat) : runLoop m n (e + done) s = .next (t, e + c) := by
  induction n generalizing done s with
  | zero => cases h; rfl
  | succ n ih =>
    obtain hr | ⟨hr, u, hu⟩ := halted_or_cycle m s
    · rw [runLoop_halted m _ _ hr] at h ⊢
      cases h
      rfl
    · rw [runLoop_running n _ hr hu] at h ⊢
      exact ih h

/-- The loop on a summed budget is the loop on the first part and then, from where that ends, on the second. -/
theorem runLoop_add {m : OpcodeMap} {n done c : Nat} {s t : State} (h : runLoop m n done s = .next (t, c)) (k : Nat) :
    runLoop m (n + k) done s = runLoop m k c t := by
  induction n generalizing done s with
  | zero => cases h; rw [Nat.zero_add]
  | succ n ih =>
    obtain hr | ⟨hr, u, hu⟩ := halted_or_cycle m s
    · rw [runLoop_halted m _ _ hr] at h ⊢
      cases h
      rw [runLoop_halted m _ _ hr]
    · rw [runLoop_running n _ hr hu] at h
      rw [Nat.succ_add, runLoop_running _ _ hr hu, ih h]

theorem coreRun_succ {s t : State} (h : step s = .next t) (k : Nat) :
    Host.Core.run Sys2Proof.core (k + 1) s = Host.Core.run Sys2Proof.core k t := by
  simp [Host.Core.run, Sys2Proof.core, h]

/-- The steps of the machine and the loop end in one state. -/
theorem coreRun_runLoop (k done : Nat) (s : State) :
    ∃ (t : State) (c : Nat),
      Host.Core.run Sys2Proof.core k s = .next t ∧ runLoop defaultOpcodeMap k done s = .next (t, c) := by
  induction k generalizing done s with
  | zero => exact ⟨s, done, rfl, rfl⟩
  | succ k ih =>
    obtain hr | ⟨hr, u, hu⟩ := halted_or_cycle defaultOpcodeMap s
    · rw [coreRun_succ (stepWith_halted _ hr), runLoop_halted _ _ _ hr, ← runLoop_halted _ k done hr]
      exact ih done s
    · rw [coreRun_succ ((stepWith_running _ hr).trans hu), runLoop_running k done hr hu]
      exact ih (done + 1) u

/-! ### run and its report (R87 to R90) -/

/-- A run answers what its loop answers, with the report of the end state and the count. -/
theorem run_eq_next {m : OpcodeMap} {n : Nat} {s t : State} {r : RunReport} :
    run m n s = .next (t, r) ↔ ∃ c, runLoop m n 0 s = .next (t, c) ∧ r = runReport t c := by
  obtain ⟨u, c, h, -⟩ := runLoop_answers m n 0 s
  simp only [run, h, Host.Outcome.next.injEq, Prod.mk.injEq]
  constructor
  · rintro ⟨rfl, rfl⟩
    exact ⟨c, ⟨rfl, rfl⟩, rfl⟩
  · rintro ⟨_, ⟨rfl, rfl⟩, rfl⟩
    exact ⟨rfl, rfl⟩

/-- Settles O23: a Halted core takes the branch without a cycle, in the step and in the loop. -/
theorem haltedIsTerminal : Obligations.HaltedIsTerminal := by
  refine fun m s n hr => ⟨stepWith_halted m hr, ?_⟩
  exact run_eq_next.mpr ⟨0, runLoop_halted m n 0 hr, by simp [runReport, hr]⟩

/-- Settles O49: the count is the loop's, and the status is read off the end state. -/
theorem runReportRule : Obligations.RunReportRule := by
  intro m n s
  obtain ⟨t, c, h, hle, heq⟩ := runLoop_answers m n 0 s
  rw [Nat.zero_add] at hle heq
  refine ⟨t, runReport t c, run_eq_next.mpr ⟨c, h, rfl⟩, hle, fun hr => ⟨?_, heq hr⟩, fun hr => ?_⟩
  · exact if_pos hr
  · exact if_neg (by simp [hr])

/-- Settles O50: the loop of the summed budget goes on where the first run's loop ends, with its count ahead. -/
theorem runsCompose : Obligations.RunsCompose := by
  intro m n k s t u r q hn hk
  obtain ⟨c, hc, rfl⟩ := run_eq_next.mp hn
  obtain ⟨d, hd, rfl⟩ := run_eq_next.mp hk
  exact run_eq_next.mpr ⟨c + d, (runLoop_add hc k).trans (runLoop_offset hd c), rfl⟩

/-- Settles O51: both answer, and in the same state. -/
theorem stepsAreRun : Obligations.StepsAreRun := by
  intro k s t
  obtain ⟨u, c, hsteps, hloop⟩ := coreRun_runLoop k 0 s
  have hrun : run defaultOpcodeMap k s = .next (u, runReport u c) := run_eq_next.mpr ⟨c, hloop, rfl⟩
  rw [hsteps, hrun]
  constructor
  · rintro ⟨⟩
    exact ⟨_, rfl⟩
  · rintro ⟨_, ⟨⟩⟩
    rfl

end Sys2Proof.Machine
end

section
/-! PROOFS. The statements about LOAD and STORE (`41_data_transfer.md`). The whole rule of each is put together from
what its `exec` does on the state after the fetches, and from lemmas that hold of every instruction with two operand
bytes: what is fetched at 253 and below and at 254, what the cycle then reports, and how a bad register byte ends it. -/
namespace Sys2Proof.Machine

/-! ### What one write changes -/

theorem State.regWrite_onlyRegister (s : State) (r : Reg) (v : Byte) : s.OnlyRegister r (s.regWrite r v) :=
  ⟨fun _ hq => RegFile.read_write_ne s.x hq v, rfl, rfl, rfl⟩

theorem State.memWrite_onlyCell {s : State} (hw : s.mem.wf = true) (a : Nat) (v : Byte) :
    s.OnlyCell a (s.memWrite a v) :=
  ⟨rfl, rfl, rfl, fun b hb => by rw [State.memWrite_mem, Memory.read_write hw, if_neg hb]⟩

/-! ### What exec does with LOAD and STORE (R100, R101) -/

/-- Settles O24: with a register byte that names a register each of the two is one write. -/
theorem dataTransferCompletes : Obligations.DataTransferCompletes := by
  refine fun s reg addr i hi => ⟨?_, fun hw => ?_⟩
  · exact ⟨_, onReg_named hi s _, s.regWrite_onlyRegister i _, RegFile.read_write_self .., rfl, rfl⟩
  · have hread : (s.mem.write addr.toNat (s.x.read i)).read addr.toNat = s.x.read i := by
      rw [Memory.read_write hw, if_pos rfl]
    exact ⟨_, onReg_named hi s _, State.memWrite_onlyCell hw _ _, hread, rfl, rfl⟩

/-- Settles O30: STORE writes one cell and no other field, or halts, which clears running only. -/
theorem storeFrame : Obligations.StoreFrame := by
  intro s t reg addr hw h
  have hmem (a : Nat) (ha : a ≠ address addr) : t.mem.read a = s.mem.read a := execStore_read_ne hw h ha
  obtain ⟨r, -, rfl⟩ | ⟨-, rfl⟩ := execStore_cases h
  · exact ⟨rfl, rfl, rfl, rfl, id, hmem⟩
  · exact ⟨rfl, rfl, rfl, rfl, by simp, hmem⟩

/-! ### Fetching an instruction with two operand bytes (R81, R85) -/

theorem operandCount_of_two {i : Instr} {b c : Byte} (hb : i.operandBytes = [b, c]) :
    i.mnemonic.format.operandCount = 2 := by
  rw [← i.operandBytes_length, hb]
  rfl

/-- At 253 and below the operands are the two bytes after the opcode. -/
theorem fetchInstr_two_inside {m : OpcodeMap} (hm : m.Admissible) {s : State} {i : Instr} (hp : s.pc.val ≤ 253)
    (hop : s.mem.read s.pc.val = m i.mnemonic)
    (hb : i.operandBytes = [s.mem.read (s.pc.val + 1), s.mem.read (s.pc.val + 2)]) :
    fetchInstr m s = (.ok i, s.setPc ⟨s.pc.val + 3, by omega⟩) :=
  fetchInstr_of_operands hm.1 (by omega) hop (by rw [operandCount_of_two hb, hb, operands_inside m hp])

/-- At 254 the second operand is HALT's opcode 0xFF (decision D4). -/
theorem fetchInstr_two_at_254 {m : OpcodeMap} (hm : m.Admissible) {s : State} {i : Instr} (hp : s.pc.val = 254)
    (hop : s.mem.read s.pc.val = m i.mnemonic) (hb : i.operandBytes = [s.mem.read 255, 0xFF]) :
    fetchInstr m s = (.ok i, (s.setPc 256).raiseHalt) := by
  obtain ⟨hinj, -, -, -, hhalt, -⟩ := hm
  exact fetchInstr_of_operands hinj (by omega) hop (by rw [operandCount_of_two hb, hb, operands_at_254 m hp, hhalt])

/-! ### The step and the outcome of a fetched instruction (R82, R146, R148) -/

theorem stepWith_of_fetch {m : OpcodeMap} {s s' : State} {i : Instr} (hr : s.running = true)
    (hf : fetchInstr m s = (.ok i, s')) : stepWith m s = exec i s' := by
  rw [stepWith_running m hr, cycle_of_fetch hf]

theorem cycleTo_continues {m : OpcodeMap} {s t : State} {p : Pc} {i : Instr} (hr : s.running = true)
    (hf : fetchInstr m s = (.ok i, s.setPc p)) (hw : i.wellFormed = true) (hi : i ≠ .halt)
    (he : exec i (s.setPc p) = .next t) : s.CycleTo m .continues t :=
  ⟨(stepWith_of_fetch hr hf).trans he, cycleOutcome_continues hf hr hw hi⟩

/-- An operand fetch out of bounds is the outcome of the cycle, whatever the instruction then does. -/
theorem cycleTo_fetchOob {m : OpcodeMap} {s t : State} {p : Pc} {i : Instr} (hr : s.running = true)
    (hf : fetchInstr m s = (.ok i, (s.setPc p).raiseHalt)) (he : exec i (s.setPc p).raiseHalt = .next t) :
    s.CycleTo m (.errorHalt .fetchOob) t :=
  ⟨(stepWith_of_fetch hr hf).trans he, cycleOutcome_oob (by rw [hf, State.raiseHalt_running])⟩

/-! ### Well-formed and ill-formed instructions (R54, R143) -/

theorem wellFormed_of_single {i : Instr} {b : Byte} {r : Reg} (hi : i.registerOperands = [b])
    (h : b.toNat = r.index) : i.wellFormed = true := by
  simp [Instr.wellFormed_iff, hi, Reg.below h]

/-- An instruction is ill-formed when one of its register bytes is 4 or more. -/
theorem illFormed_iff {i : Instr} : i.wellFormed = false ↔ ∃ b ∈ i.registerOperands, 4 ≤ b.toNat := by
  simp [Instr.wellFormed]

/-- An ill-formed instruction does nothing but halt the core. -/
theorem exec_illFormed {i : Instr} (hw : i.wellFormed = false) (s : State) : exec i s = .next s.raiseHalt := by
  obtain ⟨b, hb, h4⟩ := illFormed_iff.mp hw
  cases i <;> simp only [Instr.registerOperands, List.mem_cons, List.not_mem_nil, or_false] at hb
  case load => exact onReg_bad (hb ▸ h4) s _
  case store => exact onReg_bad (hb ▸ h4) s _
  all_goals
    obtain rfl | rfl := hb
    · exact onRegs_bad (.inl h4) s _
    · exact onRegs_bad (.inr h4) s _

/-- With all its bytes in memory an ill-formed instruction is the halt BAD_REGISTER, pc past the instruction. -/
theorem illFormed_halts {m : OpcodeMap} {s : State} {p : Pc} {i : Instr} (hr : s.running = true)
    (hf : fetchInstr m s = (.ok i, s.setPc p)) (hw : i.wellFormed = false) :
    ∃ t, s.CycleTo m (.errorHalt .badRegister) t ∧ s.HaltedAt p.val t :=
  ⟨_, ⟨(stepWith_of_fetch hr hf).trans (exec_illFormed hw _), cycleOutcome_badRegister hf hr hw⟩,
    (s.setPc p).raiseHalt_haltedAt⟩

/-- With an operand out of bounds an ill-formed instruction is the halt FETCH_OOB, the event that came first. -/
theorem illFormed_halts_past {m : OpcodeMap} {s : State} {p : Pc} {i : Instr} (hr : s.running = true)
    (hf : fetchInstr m s = (.ok i, (s.setPc p).raiseHalt)) (hw : i.wellFormed = false) :
    ∃ t, s.CycleTo m (.errorHalt .fetchOob) t ∧ s.HaltedAt p.val t :=
  ⟨_, cycleTo_fetchOob hr hf (exec_illFormed hw _), (s.setPc p).raiseHalt_haltedAt⟩

/-- The first of two operand bytes is a register byte; when it is 4 or more the instruction is ill-formed. -/
theorem illFormed_of_two {i : Instr} {b c : Byte} (hb : i.operandBytes = [b, c]) (h : 4 ≤ b.toNat) :
    i.wellFormed = false := by
  refine illFormed_iff.mpr ⟨b, ?_, h⟩
  cases i <;> cases hb <;> exact .head _

/-- An instruction with two operand bytes, the first of them 4 or more, halts wherever it stands; at 255 that byte is
HALT's opcode 0xFF. -/
theorem badFirstOperand_halts {m : OpcodeMap} (hm : m.Admissible) {s : State} (hr : s.running = true)
    (hp : s.pc.val < 256) {k : Mnemonic} (hk : k.format.operandCount = 2) (hop : s.mem.read s.pc.val = m k) :
    (s.pc.val ≤ 253 → 4 ≤ (s.mem.read (s.pc.val + 1)).toNat →
      ∃ t, s.CycleTo m (.errorHalt .badRegister) t ∧ s.HaltedAt (s.pc.val + 3) t) ∧
    (s.pc.val = 254 → 4 ≤ (s.mem.read 255).toNat →
      ∃ t, s.CycleTo m (.errorHalt .fetchOob) t ∧ s.HaltedAt 256 t) ∧
    (s.pc.val = 255 → ∃ t, s.CycleTo m (.errorHalt .fetchOob) t ∧ s.HaltedAt 256 t) := by
  obtain ⟨hinj, -, -, -, hhalt, -⟩ := hm
  obtain ⟨i, -, hb, hf⟩ := fetchInstr_at hinj hp hop
  rw [hk] at hb hf
  refine ⟨fun h hbad => ?_, fun h hbad => ?_, fun h => ?_⟩
  · rw [operands_inside m h] at hb hf
    exact illFormed_halts hr hf (illFormed_of_two hb hbad)
  · rw [operands_at_254 m h] at hb hf
    exact illFormed_halts_past hr hf (illFormed_of_two hb hbad)
  · rw [operands_at_255 m h] at hb hf
    exact illFormed_halts_past hr hf (illFormed_of_two hb (by rw [hhalt]; decide))

/-! ### The whole rules of LOAD and STORE (R100, R101) -/

/-- Settles O7: `exec` of LOAD on the state after the fetches, with the address byte from memory or, at 254, 0xFF. -/
theorem loadRule : Obligations.LoadRule := by
  intro m hm s hr hp hop
  obtain ⟨hbad, hbad254, hbad255⟩ := badFirstOperand_halts hm hr hp rfl hop
  refine ⟨fun h i hi => ?inside, hbad, fun h i hi => ?at254, hbad254, hbad255⟩
  case inside =>
    obtain ⟨t, he, honly, hread, hpc, hrun⟩ :=
      (dataTransferCompletes (s.setPc ⟨s.pc.val + 3, by omega⟩) _ (s.mem.read (s.pc.val + 2)) i hi).1
    have hf := fetchInstr_two_inside hm (i := .load _ _) h hop rfl
    exact ⟨t, cycleTo_continues hr hf (wellFormed_of_single rfl hi) nofun he, honly, hread, congrArg Fin.val hpc,
      hrun.trans hr⟩
  case at254 =>
    obtain ⟨t, he, honly, hread, hpc, hrun⟩ := (dataTransferCompletes (s.setPc 256).raiseHalt _ 0xFF i hi).1
    have hf := fetchInstr_two_at_254 hm (i := .load _ _) h hop rfl
    exact ⟨t, cycleTo_fetchOob hr hf he, honly, hread, congrArg Fin.val hpc, hrun⟩

/-- Settles O8: `exec` of STORE on the state after the fetches, with the address byte from memory or, at 254, 0xFF. -/
theorem storeRule : Obligations.StoreRule := by
  intro m hm s hw hr hp hop
  obtain ⟨hbad, hbad254, hbad255⟩ := badFirstOperand_halts hm hr hp rfl hop
  refine ⟨fun h i hi => ?inside, hbad, fun h i hi => ?at254, hbad254, hbad255⟩
  case inside =>
    obtain ⟨t, he, honly, hread, hpc, hrun⟩ :=
      (dataTransferCompletes (s.setPc ⟨s.pc.val + 3, by omega⟩) _ (s.mem.read (s.pc.val + 2)) i hi).2 hw
    have hf := fetchInstr_two_inside hm (i := .store _ _) h hop rfl
    exact ⟨t, cycleTo_continues hr hf (wellFormed_of_single rfl hi) nofun he, honly, hread, congrArg Fin.val hpc,
      hrun.trans hr⟩
  case at254 =>
    obtain ⟨t, he, honly, hread, hpc, hrun⟩ := (dataTransferCompletes (s.setPc 256).raiseHalt _ 0xFF i hi).2 hw
    have hf := fetchInstr_two_at_254 hm (i := .store _ _) h hop rfl
    exact ⟨t, cycleTo_fetchOob hr hf he, honly, hread, congrArg Fin.val hpc, hrun⟩

end Sys2Proof.Machine
end

section
/-! PROOFS. The statements about ADD, SUB and CMP (`42_alu.md`). All three have two register operands, so what bad bytes
and the end of memory do to them is said once, of every instruction of that format; what tells them apart is what `exec`
does when both bytes name registers. -/
namespace Sys2Proof.Machine

/-! ### Writing a register back -/

theorem RegFile.write_write (f : RegFile) (r : Reg) (u v : Byte) : (f.write r u).write r v = f.write r v := by
  cases r <;> rfl

theorem RegFile.write_read (f : RegFile) (r : Reg) : f.write r (f.read r) = f := by
  cases r <;> rfl

/-- Overwriting a register and then writing its old value back leaves the state as it was. -/
theorem State.regWrite_restore (s : State) (r : Reg) (v : Byte) : (s.regWrite r v).regWrite r (s.x.read r) = s := by
  rw [State.regWrite, State.regWrite_x, RegFile.write_write, RegFile.write_read]
  rfl

/-- The wrapped difference takes back what the wrapped sum added (R110). -/
theorem aluSub_aluAdd (u v : Byte) : aluSub (aluAdd u v) v = u := by
  apply BitVec.eq_of_toNat_eq
  have hsub := aluSub_toNat (aluAdd u v) v
  rw [aluAdd_toNat] at hsub
  omega

/-! ### What exec does with ADD, SUB and CMP (R111 to R113) -/

theorem execAdd_named {b c : Byte} {r q : Reg} (hb : b.toNat = r.index) (hc : c.toNat = q.index) (s : State) :
    exec (.add b c) s = .next (s.regWrite r (aluAdd (s.x.read r) (s.x.read q))) :=
  onRegs_named hb hc s _

theorem execSub_named {b c : Byte} {r q : Reg} (hb : b.toNat = r.index) (hc : c.toNat = q.index) (s : State) :
    exec (.sub b c) s = .next (s.regWrite r (aluSub (s.x.read r) (s.x.read q))) :=
  onRegs_named hb hc s _

theorem execCmp_named {b c : Byte} {r q : Reg} (hb : b.toNat = r.index) (hc : c.toNat = q.index) (s : State) :
    exec (.cmp b c) s = .next (s.compare (s.x.read r) (s.x.read q)) :=
  onRegs_named hb hc s _

/-- Settles O25: with two bytes that name registers ADD and SUB are one register write, and CMP writes the flags. -/
theorem aluCompletes : Obligations.AluCompletes := by
  intro s b c i j hi hj
  refine ⟨?add, ?sub, ?cmp⟩
  case add =>
    refine ⟨_, execAdd_named hi hj s, s.regWrite_onlyRegister i _, ?_, rfl, rfl⟩
    rw [State.regWrite_x, RegFile.read_write_self, aluAdd_toNat]
  case sub =>
    refine ⟨_, execSub_named hi hj s, s.regWrite_onlyRegister i _, ?_, rfl, rfl⟩
    rw [State.regWrite_x, RegFile.read_write_self, aluSub_toNat]
  case cmp => exact ⟨_, execCmp_named hi hj s, rfl, rfl, decide_eq_true_iff, rfl, rfl, rfl⟩

/-- Settles O31: CMP writes the flags and no other field, or halts, which clears running only. -/
theorem compareFrame : Obligations.CompareFrame := by
  intro s t b c h
  obtain ⟨_, _, -, -, rfl⟩ | ⟨-, rfl⟩ := execCmp_cases h
  · exact ⟨rfl, rfl, id, fun _ => rfl⟩
  · exact ⟨rfl, rfl, by simp, fun _ => rfl⟩

/-- Settles O41: SUB reads the second register as ADD left it, untouched, so its difference is the first register's old
value. -/
theorem subUndoesAdd : Obligations.SubUndoesAdd := by
  intro s b c i j hi hj hij
  refine ⟨_, execAdd_named hi hj s, ?_⟩
  rw [execSub_named hi hj, State.regWrite_x, RegFile.read_write_self, RegFile.read_write_ne s.x hij.symm,
    aluSub_aluAdd, State.regWrite_restore]

/-! ### Instructions with two register operands (R54, R85, R143) -/

theorem registerOperands_of_regReg {i : Instr} (hk : i.mnemonic.format = .regReg) :
    i.registerOperands = i.operandBytes := by
  cases i <;> cases hk <;> rfl

theorem illFormed_of_pair {i : Instr} {b c : Byte} (hi : i.registerOperands = [b, c])
    (h : 4 ≤ b.toNat ∨ 4 ≤ c.toNat) : i.wellFormed = false := by
  simpa [illFormed_iff, hi] using h

theorem wellFormed_of_pair {i : Instr} {b c : Byte} {r q : Reg} (hi : i.registerOperands = [b, c])
    (hb : b.toNat = r.index) (hc : c.toNat = q.index) : i.wellFormed = true := by
  simp [Instr.wellFormed_iff, hi, Reg.below hb, Reg.below hc]

/-- At 253 and below, with two bytes that name registers, the cycle continues with what `exec` does past the
instruction. -/
theorem regReg_continues {m : OpcodeMap} (hm : m.Admissible) {s t : State} (hr : s.running = true)
    (hp : s.pc.val ≤ 253) {i : Instr} (hk : i.mnemonic.format = .regReg) (hop : s.mem.read s.pc.val = m i.mnemonic)
    (hb : i.operandBytes = [s.mem.read (s.pc.val + 1), s.mem.read (s.pc.val + 2)]) {r q : Reg}
    (hfst : (s.mem.read (s.pc.val + 1)).toNat = r.index) (hsnd : (s.mem.read (s.pc.val + 2)).toNat = q.index)
    (he : exec i (s.setPc ⟨s.pc.val + 3, by omega⟩) = .next t) : s.CycleTo m .continues t := by
  have hw := wellFormed_of_pair ((registerOperands_of_regReg hk).trans hb) hfst hsnd
  exact cycleTo_continues hr (fetchInstr_two_inside hm hp hop hb) hw (by rintro rfl; cases hk) he

/-- With a bad register byte, first or second, the instruction halts; at 254 and 255 its second byte is HALT's opcode
0xFF, which names no register (decision D4). -/
theorem regReg_halts {m : OpcodeMap} (hm : m.Admissible) {s : State} (hr : s.running = true)
    (hp : s.pc.val < 256) {k : Mnemonic} (hk : k.format = .regReg) (hop : s.mem.read s.pc.val = m k) :
    (s.pc.val ≤ 253 → (4 ≤ (s.mem.read (s.pc.val + 1)).toNat ∨ 4 ≤ (s.mem.read (s.pc.val + 2)).toNat) →
      ∃ t, s.CycleTo m (.errorHalt .badRegister) t ∧ s.HaltedAt (s.pc.val + 3) t) ∧
    (254 ≤ s.pc.val → ∃ t, s.CycleTo m (.errorHalt .fetchOob) t ∧ s.HaltedAt 256 t) := by
  obtain ⟨hinj, -, -, -, hhalt, -⟩ := hm
  have hbad : 4 ≤ (m .halt).toNat := by rw [hhalt]; decide
  obtain ⟨i, rfl, hb, hf⟩ := fetchInstr_at hinj hp hop
  rw [← registerOperands_of_regReg hk] at hb
  rw [hk, Format.operandCount] at hb hf
  refine ⟨fun h hbyte => ?inside, fun h => ?past⟩
  case inside =>
    rw [operands_inside m h] at hb hf
    exact illFormed_halts hr hf (illFormed_of_pair hb hbyte)
  case past =>
    obtain h | h : s.pc.val = 254 ∨ s.pc.val = 255 := by omega
    · rw [operands_at_254 m h] at hb hf
      exact illFormed_halts_past hr hf (illFormed_of_pair hb (.inr hbad))
    · rw [operands_at_255 m h] at hb hf
      exact illFormed_halts_past hr hf (illFormed_of_pair hb (.inr hbad))

/-! ### The whole rules of ADD, SUB and CMP (R111 to R113) -/

/-- Settles O9: `exec` of ADD on the state with pc past the instruction. -/
theorem addRule : Obligations.AddRule := by
  intro m hm s hr hp hop
  refine ⟨fun h i j hi hj => ?_, regReg_halts hm hr hp rfl hop⟩
  obtain ⟨⟨t, he, honly, hsum, hpc, hrun⟩, -, -⟩ :=
    aluCompletes (s.setPc ⟨s.pc.val + 3, by omega⟩) _ _ i j hi hj
  have hcycle := regReg_continues (i := .add _ _) hm hr h rfl hop rfl hi hj he
  exact ⟨t, hcycle, honly, hsum, congrArg Fin.val hpc, hrun.trans hr⟩

/-- Settles O10: `exec` of SUB on the state with pc past the instruction. -/
theorem subRule : Obligations.SubRule := by
  intro m hm s hr hp hop
  refine ⟨fun h i j hi hj => ?_, regReg_halts hm hr hp rfl hop⟩
  obtain ⟨-, ⟨t, he, honly, hdiff, hpc, hrun⟩, -⟩ :=
    aluCompletes (s.setPc ⟨s.pc.val + 3, by omega⟩) _ _ i j hi hj
  have hcycle := regReg_continues (i := .sub _ _) hm hr h rfl hop rfl hi hj he
  exact ⟨t, hcycle, honly, hdiff, congrArg Fin.val hpc, hrun.trans hr⟩

/-- Settles O11: `exec` of CMP on the state with pc past the instruction; NE is written as the negation of EQ. -/
theorem cmpRule : Obligations.CmpRule := by
  intro m hm s hr hp hop
  refine ⟨fun h i j hi hj => ?_, regReg_halts hm hr hp rfl hop⟩
  obtain ⟨-, -, t, he, hx, hmem, heq, hcompl, hpc, hrun⟩ :=
    aluCompletes (s.setPc ⟨s.pc.val + 3, by omega⟩) _ _ i j hi hj
  have hne : t.flagNe = true ↔ s.x.read i ≠ s.x.read j := by simpa [hcompl] using not_congr heq
  have hcycle := regReg_continues (i := .cmp _ _) hm hr h rfl hop rfl hi hj he
  exact ⟨t, hcycle, hx, hmem, heq, hne, congrArg Fin.val hpc, hrun.trans hr⟩

end Sys2Proof.Machine
end

section
/-! PROOFS. The statements about JUMP, JEQ and JNE (`43_control_transfer.md`). The three are one operation, a jump that
is taken or not: JUMP always takes it, JEQ and JNE as their flag says. Its whole rule, the end of memory included, is
proved once, of any instruction with one operand byte whose `exec` is that operation. -/
namespace Sys2Proof.Machine

/-! ### A jump taken or not (R120 to R122) -/

/-- Where a jump leaves the program counter: at the address byte when it is taken, else past the instruction. -/
def branchPc (taken : Bool) (addr : Byte) (past : Pc) : Pc := if taken then jumpTarget addr else past

theorem branchPc_val (taken : Bool) (addr : Byte) (past : Pc) :
    (branchPc taken addr past).val = if taken = true then addr.toNat else past.val := by
  cases taken <;> rfl

theorem State.setPc_sameData (s : State) (p : Pc) : s.SameData (s.setPc p) := ⟨rfl, rfl, rfl, rfl⟩

theorem exec_jump (addr : Byte) (s : State) :
    exec (.jump addr) s = .next (s.setPc (branchPc true addr s.pc)) := rfl

theorem exec_jeq (addr : Byte) (s : State) :
    exec (.jeq addr) s = .next (s.setPc (branchPc s.flagEq addr s.pc)) := by
  obtain ⟨t, h⟩ := exec_answers (.jeq addr) s
  obtain ⟨hf, rfl⟩ | ⟨hf, rfl⟩ := execJeq_cases h <;> rw [h, hf] <;> rfl

theorem exec_jne (addr : Byte) (s : State) :
    exec (.jne addr) s = .next (s.setPc (branchPc s.flagNe addr s.pc)) := by
  obtain ⟨t, h⟩ := exec_answers (.jne addr) s
  obtain ⟨hf, rfl⟩ | ⟨hf, rfl⟩ := execJne_cases h <;> rw [h, hf] <;> rfl

/-- Settles O26: each of the three writes pc and nothing else. -/
theorem controlTransferCompletes : Obligations.ControlTransferCompletes := by
  refine fun s addr => ⟨?jump, ?jeq, ?jne⟩
  case jump => exact ⟨_, exec_jump addr s, s.setPc_sameData _, rfl, rfl⟩
  case jeq => exact ⟨_, exec_jeq addr s, s.setPc_sameData _, rfl, branchPc_val ..⟩
  case jne => exact ⟨_, exec_jne addr s, s.setPc_sameData _, rfl, branchPc_val ..⟩

/-! ### The frame of the five control and system instructions -/

/-- All that JUMP, JEQ, JNE, NOP and HALT can do: set pc, NOP to what it was, or, HALT alone, halt. -/
theorem control_cases {s t : State} {a : Byte} {i : Instr}
    (hi : i = .jump a ∨ i = .jeq a ∨ i = .jne a ∨ i = .nop ∨ i = .halt) (h : exec i s = .next t) :
    (∃ p, t = s.setPc p) ∨ (i = .halt ∧ t = s.raiseHalt) := by
  obtain rfl | rfl | rfl | rfl | rfl := hi
  · exact .inl ⟨_, execJump_eq h⟩
  · exact .inl ⟨_, Host.Outcome.next.inj (h.symm.trans (exec_jeq a s))⟩
  · exact .inl ⟨_, Host.Outcome.next.inj (h.symm.trans (exec_jne a s))⟩
  · exact .inl ⟨s.pc, execNop_eq h⟩
  · exact .inr ⟨rfl, execHalt_eq h⟩

/-- Settles O32: setting pc keeps every other field, and a halt, which is HALT's alone, clears running only. -/
theorem controlFrame : Obligations.ControlFrame := by
  intro s t a i hi h
  obtain ⟨p, rfl⟩ | ⟨rfl, rfl⟩ := control_cases hi h
  · exact ⟨rfl, rfl, rfl, fun _ => rfl, id, fun _ => rfl⟩
  · exact ⟨rfl, rfl, rfl, fun hne => absurd rfl hne, by simp, fun _ => rfl⟩

/-! ### Instructions with one operand byte (R81, R85) -/

theorem operandCount_of_one {i : Instr} {b : Byte} (hb : i.operandBytes = [b]) :
    i.mnemonic.format.operandCount = 1 := by
  rw [← i.operandBytes_length, hb]
  rfl

/-- A lone operand byte is an address, so that it cannot be a bad register byte (R57). -/
theorem wellFormed_of_one {i : Instr} {b : Byte} (hb : i.operandBytes = [b]) : i.wellFormed = true := by
  cases i <;> cases hb <;> rfl

/-- At 254 and below the operand is the byte after the opcode. -/
theorem fetchInstr_one_inside {m : OpcodeMap} (hm : m.Admissible) {s : State} {i : Instr} (hp : s.pc.val ≤ 254)
    (hop : s.mem.read s.pc.val = m i.mnemonic) (hb : i.operandBytes = [s.mem.read (s.pc.val + 1)]) :
    fetchInstr m s = (.ok i, s.setPc ⟨s.pc.val + 2, by omega⟩) :=
  fetchInstr_of_operands hm.1 (by omega) hop (by rw [operandCount_of_one hb, hb, operand_inside m hp])

/-- At 255 the operand is HALT's opcode 0xFF (decision D4). -/
theorem fetchInstr_one_at_255 {m : OpcodeMap} (hm : m.Admissible) {s : State} {i : Instr} (hp : s.pc.val = 255)
    (hop : s.mem.read s.pc.val = m i.mnemonic) (hb : i.operandBytes = [0xFF]) :
    fetchInstr m s = (.ok i, (s.setPc 256).raiseHalt) := by
  obtain ⟨hinj, -, -, -, hhalt, -⟩ := hm
  exact fetchInstr_of_operands hinj (by omega) hop (by rw [operandCount_of_one hb, hb, operand_at_255 m hp, hhalt])

/-! ### The whole rules of JUMP, JEQ and JNE (R120 to R122) -/

/-- The whole rule of a jump: `jump` makes an instruction of its address byte, and `taken` says whether pc goes there.
Whether it does may depend on the flags, which the fetches keep, and not on pc or running, which they change. -/
theorem branchRule {m : OpcodeMap} (hm : m.Admissible) {s : State} (hr : s.running = true) {jump : Byte → Instr}
    {taken : Bool} (hop : ∀ a, s.mem.read s.pc.val = m (jump a).mnemonic) (hb : ∀ a, (jump a).operandBytes = [a])
    (hexec : ∀ a s', s.SameData s' → exec (jump a) s' = .next (s'.setPc (branchPc taken a s'.pc))) :
    (s.pc.val ≤ 254 →
      ∃ t, s.CycleTo m .continues t ∧ s.SameData t ∧
        t.pc.val = (if taken = true then (s.mem.read (s.pc.val + 1)).toNat else s.pc.val + 2) ∧ t.running = true) ∧
    (s.pc.val = 255 →
      ∃ t, s.CycleTo m (.errorHalt .fetchOob) t ∧ s.HaltedAt (if taken = true then 255 else 256) t) := by
  refine ⟨fun h => ?inside, fun h => ?at255⟩
  case inside =>
    have hf := fetchInstr_one_inside hm h (hop _) (hb _)
    have hne : jump (s.mem.read (s.pc.val + 1)) ≠ .halt := fun heq => nomatch heq ▸ hb _
    have hcycle := cycleTo_continues hr hf (wellFormed_of_one (hb _)) hne (hexec _ _ (s.setPc_sameData _))
    exact ⟨_, hcycle, s.setPc_sameData _, branchPc_val .., hr⟩
  case at255 =>
    have hf := fetchInstr_one_at_255 hm h (hop 0xFF) (hb 0xFF)
    have hdata : s.SameData (s.setPc 256).raiseHalt := s.setPc_sameData 256
    exact ⟨_, cycleTo_fetchOob hr hf (hexec _ _ hdata), hdata, branchPc_val .., rfl⟩

/-- Settles O12: JUMP is a jump that is always taken. -/
theorem jumpRule : Obligations.JumpRule := by
  intro m hm s hr _ hop
  exact branchRule hm hr (jump := .jump) (taken := true) (fun _ => hop) (fun _ => rfl) fun a s' _ => exec_jump a s'

/-- Settles O13: JEQ is a jump taken when EQ is true; no other flag is read. -/
theorem jeqRule : Obligations.JeqRule := by
  intro m hm s hr _ hop
  refine branchRule hm hr (jump := .jeq) (fun _ => hop) (fun _ => rfl) ?_
  rintro a s' ⟨-, heq, -, -⟩
  rw [exec_jeq, heq]

/-- Settles O14: JNE is a jump taken when the stored NE is true, whatever EQ is. -/
theorem jneRule : Obligations.JneRule := by
  intro m hm s hr _ hop
  refine branchRule hm hr (jump := .jne) (fun _ => hop) (fun _ => rfl) ?_
  rintro a s' ⟨-, -, hne, -⟩
  rw [exec_jne, hne]

end Sys2Proof.Machine
end

section
/-! PROOFS. The statements about NOP, HALT and the unknown opcode (`44_system.md`). None of the three fetches an
operand, so that each ends with pc one past its byte; what a cycle reports is said once as a case split, from which
follow when it is a clean halt and where a run without error halts ends. -/
namespace Sys2Proof.Machine

/-! ### NOP and HALT (R130, R131) -/

/-- Settles O27: NOP answers the state it is given, and HALT raises the halt on it. -/
theorem systemCompletes : Obligations.SystemCompletes :=
  fun s => ⟨rfl, _, rfl, s.raiseHalt_haltedAt⟩

/-- An instruction without operands is fetched with its opcode alone, at 255 too. -/
theorem fetchInstr_none {m : OpcodeMap} (hm : Function.Injective m) {s : State} (hp : s.pc.val < 256) {i : Instr}
    (hop : s.mem.read s.pc.val = m i.mnemonic) (hb : i.operandBytes = []) :
    fetchInstr m s = (.ok i, s.setPc (pcSucc s.pc)) := by
  refine fetchInstr_of_operands hm hp hop ?_
  rw [← i.operandBytes_length, hb]
  rfl

/-- Settles O15: NOP is fetched with pc one on, and `exec` adds nothing. -/
theorem nopRule : Obligations.NopRule := by
  intro m hm s hr hp hop
  have hf := fetchInstr_none hm.1 (i := .nop) hp hop rfl
  exact ⟨_, cycleTo_continues hr hf rfl nofun rfl, s.setPc_sameData _, pcSucc_val hp, hr⟩

/-- A cycle with HALT fetched from memory is a clean halt (R131). -/
theorem cycleOutcome_cleanHalt {m : OpcodeMap} {s s' : State} (h : fetchInstr m s = (.ok .halt, s'))
    (hr : s'.running = true) : cycleOutcome m s = .cleanHalt := by
  rw [cycleOutcome, h, if_pos hr]
  rfl

/-- HALT's byte 0xFF in memory at pc is fetched as HALT. -/
theorem fetchInstr_halt {m : OpcodeMap} (hm : m.Admissible) {s : State} (hp : s.pc.val < 256)
    (hop : s.mem.read s.pc.val = 0xFF) : fetchInstr m s = (.ok .halt, s.setPc (pcSucc s.pc)) := by
  obtain ⟨hinj, -, -, -, hhalt, -⟩ := hm
  exact fetchInstr_none hinj hp (hop.trans hhalt.symm) rfl

/-- A halt after the fetch of one byte leaves the core Halted one past that byte, with nothing else changed. -/
theorem State.haltedAt_pcSucc {s : State} (hp : s.pc.val < 256) :
    s.HaltedAt (s.pc.val + 1) (s.setPc (pcSucc s.pc)).raiseHalt :=
  ⟨⟨rfl, rfl, rfl, rfl⟩, pcSucc_val hp, rfl⟩

/-- Settles O16: HALT halts the core after the fetch of its byte, and every run of a Halted core is empty. -/
theorem haltRule : Obligations.HaltRule := by
  intro m hm s hr hp hop
  have hf := fetchInstr_halt hm hp hop
  refine ⟨_, ⟨stepWith_of_fetch hr hf, cycleOutcome_cleanHalt hf hr⟩, State.haltedAt_pcSucc hp, fun n => ?_⟩
  exact (haltedIsTerminal m _ n rfl).2

/-! ### The unknown opcode (R132, R141) -/

/-- Settles O17: a byte of no mnemonic is fetched without operands, and the cycle halts the core. -/
theorem unknownOpcodeRule : Obligations.UnknownOpcodeRule := by
  intro m _ s hr hp hu
  have hf : fetchInstr m s = (.error (.unknownOpcode (s.mem.read s.pc.val)), s.setPc (pcSucc s.pc)) := by
    have := fetchInstr_unknown (m := m) (s := s) (decodeOpcode_none.mpr (by rwa [fetch_of_lt hp]))
    rwa [fetch_of_lt hp] at this
  refine ⟨_, ⟨?step, ?outcome⟩, State.haltedAt_pcSucc hp⟩
  case step =>
    rw [stepWith_running m hr, cycle, hf]
    rfl
  case outcome =>
    rw [cycleOutcome, hf]
    exact if_pos hr

/-! ### What a cycle reports (R146, R148) -/

theorem eventOutcome_eq_continues {e : Option HaltKind} : eventOutcome e = .continues ↔ e = none := by
  cases e with
  | none => simp [eventOutcome]
  | some k => cases k <;> simp [eventOutcome]

theorem eventOutcome_eq_cleanHalt {e : Option HaltKind} : eventOutcome e = .cleanHalt ↔ e = some .cleanHalt := by
  cases e with
  | none => simp [eventOutcome]
  | some k => cases k <;> simp [eventOutcome]

/-- HALT is the one instruction whose event is the clean halt. -/
theorem eq_halt_of_instrEvent {i : Instr} (h : instrEvent i = some .cleanHalt) : i = .halt := by
  unfold instrEvent at h
  split at h
  · split at h
    · assumption
    · cases h
  · cases h

/-- All that a cycle can report: an error halt, or, with no fetch out of bounds, the event of the instruction it
executes. -/
theorem cycleOutcome_cases (m : OpcodeMap) (s : State) :
    (cycleOutcome m s).isError = true ∨
      ∃ i : Instr, m i.mnemonic = (fetch m s).1 ∧ (fetchInstr m s).2.running = true ∧
        cycle m s = exec i (fetchInstr m s).2 ∧ cycleOutcome m s = eventOutcome (instrEvent i) := by
  cases hr : (fetchInstr m s).2.running with
  | false => exact .inl (by rw [cycleOutcome_oob hr]; rfl)
  | true =>
    obtain ⟨i, hf, hop, hc⟩ | ⟨-, hf, -⟩ := cycle_cases m s
    · exact .inr ⟨i, hop, rfl, hc, by rw [cycleOutcome, if_pos hr, hf]⟩
    · exact .inl (by rw [cycleOutcome, if_pos hr, hf]; rfl)

/-- A core still Running after the fetches began them inside memory. -/
theorem pc_lt_of_fetchInstr_running {m : OpcodeMap} {s : State} (h : (fetchInstr m s).2.running = true) :
    s.pc.val < 256 := by
  by_contra hp
  have hfetch : (fetch m s).2.running = true := fetchBytes_running h
  rw [fetch_of_end hp] at hfetch
  cases hfetch

/-- Settles O39: only HALT has the clean halt for its event, and its opcode came from memory, since the HALT that stands
in for a fetch at 256 (R86) reports FETCH_OOB. -/
theorem cleanHaltExactlyAtHalt : Obligations.CleanHaltExactlyAtHalt := by
  refine fun m hm s hr => ⟨fun h => ?clean, fun ⟨hp, hop⟩ => cycleOutcome_cleanHalt (fetchInstr_halt hm hp hop) hr⟩
  obtain ⟨-, -, -, -, hhalt, -⟩ := hm
  obtain herr | ⟨i, hop, hrun, -, hout⟩ := cycleOutcome_cases m s
  · rw [h] at herr
    cases herr
  · obtain rfl : i = .halt := eq_halt_of_instrEvent (eventOutcome_eq_cleanHalt.mp (hout.symm.trans h))
    have hp := pc_lt_of_fetchInstr_running hrun
    rw [fetch_of_lt hp] at hop
    exact ⟨hp, hop.symm.trans hhalt⟩

/-! ### Runs without an error halt (R145) -/

/-- A cycle that reports `continues` leaves the core Running. -/
theorem running_of_continues {m : OpcodeMap} {s t : State} (hc : cycle m s = .next t)
    (h : cycleOutcome m s = .continues) : t.running = true := by
  obtain herr | ⟨i, -, hrun, hexec, hout⟩ := cycleOutcome_cases m s
  · rw [h] at herr
    cases herr
  · have hnone : instrEvent i = none := eventOutcome_eq_continues.mp (hout.symm.trans h)
    rw [exec_running (hexec.symm.trans hc), hrun, hnone]
    rfl

/-- The byte before pc is HALT's. -/
def State.PastHalt (s : State) : Prop := 1 ≤ s.pc.val ∧ s.mem.read (s.pc.val - 1) = 0xFF

/-- A cycle that reports the clean halt leaves the core Halted past a HALT byte. -/
theorem pastHalt_of_cleanHalt {m : OpcodeMap} (hm : m.Admissible) {s t : State} (hr : s.running = true)
    (hc : cycle m s = .next t) (h : cycleOutcome m s = .cleanHalt) : t.running = false ∧ t.PastHalt := by
  obtain ⟨hp, hop⟩ := (cleanHaltExactlyAtHalt m hm s hr).mp h
  obtain ⟨u, ⟨hstep, -⟩, ⟨⟨-, -, -, hmem⟩, hpc, hrun⟩, -⟩ := haltRule m hm s hr hp hop
  obtain rfl : u = t := Host.Outcome.next.inj (hstep.symm.trans ((stepWith_running m hr).trans hc))
  refine ⟨hrun, by omega, ?_⟩
  rw [hpc, hmem, Nat.add_sub_cancel, hop]

/-- A loop without error halts that ends Halted ends past a HALT byte: it goes on while its cycles continue, and stops
at the clean halt. -/
theorem runLoop_pastHalt {m : OpcodeMap} (hm : m.Admissible) {n done c : Nat} {s t : State} (hr : s.running = true)
    (hs : SafeFor m n s) (h : runLoop m n done s = .next (t, c)) (ht : t.running = false) : t.PastHalt := by
  induction n generalizing done s with
  | zero =>
    cases h
    simp [hr] at ht
  | succ n ih =>
    obtain ⟨hok, hrest⟩ := hs hr
    obtain ⟨u, hu⟩ := cycle_answers m s
    rw [runLoop_running n done hr hu] at h
    cases hout : cycleOutcome m s with
    | continues => exact ih (running_of_continues hu hout) (hrest u hu) h
    | cleanHalt =>
      obtain ⟨hrun, hpast⟩ := pastHalt_of_cleanHalt hm hr hu hout
      rw [runLoop_halted m n _ hrun] at h
      cases h
      exact hpast
    | errorHalt kind =>
      rw [hout] at hok
      cases hok

/-- Settles O52: a run is its loop, and the loop stops Halted only at a HALT. -/
theorem safeRunEndsAtHalt : Obligations.SafeRunEndsAtHalt := by
  intro m hm n s t report hr hs h ht
  obtain ⟨c, hloop, -⟩ := run_eq_next.mp h
  exact runLoop_pastHalt hm hr hs hloop ht

end Sys2Proof.Machine
end

section
/-! PROOFS. The statement that a cycle's outcome agrees with the state it ends in (`60_exceptions.md` R146). -/
namespace Sys2Proof.Machine

/-- A cycle that leaves the core Running reports `continues`: its bytes were an instruction, no fetch was out of bounds,
and the instruction raised no event. -/
theorem continues_of_running {m : OpcodeMap} {s t : State} (hc : cycle m s = .next t) (ht : t.running = true) :
    cycleOutcome m s = .continues := by
  obtain ⟨i, hf, -, hexec⟩ | ⟨-, -, hhalt⟩ := cycle_cases m s
  · have hrunning := exec_running (hexec.symm.trans hc)
    rw [ht, eq_comm, Bool.and_eq_true, Option.isNone_iff_eq_none] at hrunning
    obtain ⟨hfetch, hnone⟩ := hrunning
    rw [cycleOutcome, if_pos hfetch, hf]
    exact eventOutcome_eq_continues.mpr hnone
  · obtain rfl : _ = t := Host.Outcome.next.inj (hhalt.symm.trans hc)
    cases ht

/-- Settles O38: an instruction clears running exactly when it raises an event, and every other way for a cycle to end
Halted is an error halt. -/
theorem outcomeAgreesWithRunning : Obligations.OutcomeAgreesWithRunning :=
  fun _ _ _ _ hc => ⟨running_of_continues hc, continues_of_running hc⟩

end Sys2Proof.Machine
end

section
/-! PROOFS. The statements about the host's operations and their sessions (`70_reset_and_hazards.md`). All that one
operation can do is said once, `hostStep_cases`; the invariant of sessions and the safety of the state Halted follow
from it, with what the loop of `run` keeps. -/
namespace Sys2Proof.Machine

/-! ### load_program (R164, R165) -/

/-- An image of up to 256 bytes is written to memory from cell 0 on. -/
theorem hostStep_loadProgram (m : OpcodeMap) (s : State) {bytes : List Byte} (h : bytes.length ≤ 256) :
    hostStep m (.loadProgram bytes) s = .next ({ s with mem := s.mem.writeBytes 0 bytes }, .done) := by
  simp [hostStep, loadProgram, h]

/-- A larger image is refused. -/
theorem hostStep_loadProgram_oversized (m : OpcodeMap) (s : State) {bytes : List Byte} (h : 256 < bytes.length) :
    hostStep m (.loadProgram bytes) s = .next (s, .loadFailed) := by
  simp [hostStep, loadProgram, Nat.not_le.mpr h]

/-- A cell within an image written from cell 0 reads the image's byte. -/
theorem Memory.read_writeBytes_image {mem : Memory} (hw : mem.wf = true) {bytes : List Byte}
    (hfit : bytes.length ≤ 256) {k : Nat} (hk : k < bytes.length) : (mem.writeBytes 0 bytes).read k = bytes[k] := by
  rw [Memory.read_writeBytes hw, if_pos ⟨Nat.zero_le k, by omega⟩]
  simp [hk]

/-- A cell past an image written from cell 0 reads what it read before. -/
theorem Memory.read_writeBytes_tail {mem : Memory} (hw : mem.wf = true) {bytes : List Byte} {k : Nat}
    (hk : bytes.length ≤ k) : (mem.writeBytes 0 bytes).read k = mem.read k := by
  rw [Memory.read_writeBytes hw]
  simp [hk]

/-- Settles O46: load_program is one write of a run of bytes, and no other field is named in it. -/
theorem loadProgramRule : Obligations.LoadProgramRule := fun m s _ hw hfit =>
  ⟨_, hostStep_loadProgram m s hfit, rfl, rfl, rfl, rfl, rfl,
    fun _ hk => Memory.read_writeBytes_image hw hfit hk, fun _ hk => Memory.read_writeBytes_tail hw hk⟩

/-- Settles O47: 256 bytes are within the bound of `loadProgramRule`, and more are refused. -/
theorem oversizedLoadFails : Obligations.OversizedLoadFails := by
  refine fun m s bytes => ⟨hostStep_loadProgram_oversized m s, fun hlen hw => ?_⟩
  obtain ⟨t, hstep, -, -, -, -, -, himage, -⟩ := loadProgramRule m s bytes hw hlen.le
  exact ⟨t, hstep, himage⟩

/-! ### reset and poke (R160, R168) -/

/-- Settles O45: each value is the one that `State.reset` gives. -/
theorem resetRule : Obligations.ResetRule :=
  fun _ => ⟨fun r => by cases r <;> rfl, rfl, rfl, rfl, rfl, fun _ => rfl⟩

/-- Settles O48: a poke is one memory write, whatever running is. -/
theorem pokeRule : Obligations.PokeRule := by
  intro m s a v hw
  have hread : (s.mem.write a.toNat v).read a.toNat = v := by rw [Memory.read_write hw, if_pos rfl]
  exact ⟨_, rfl, State.memWrite_onlyCell hw _ v, hread, rfl, rfl⟩

/-! ### What one operation can do (R166) -/

/-- All that the state after a host operation can be: the reset state, the state before with another memory that is
canonical if the old one is, or the end state of the loop of `run`. -/
theorem hostStep_cases {m : OpcodeMap} {op : HostOp} {s t : State} {reply : HostReply}
    (h : hostStep m op s = .next (t, reply)) :
    (op = .reset ∧ t = State.reset) ∨
      (∃ mem : Memory, (s.mem.wf = true → mem.wf = true) ∧ t = { s with mem := mem }) ∨
      ∃ n c, op = .run n ∧ runLoop m n 0 s = .next (t, c) := by
  cases op with
  | reset => cases h; exact .inl ⟨rfl, rfl⟩
  | loadProgram bytes =>
    obtain hfit | hbig := le_or_gt bytes.length 256
    · rw [hostStep_loadProgram m s hfit] at h
      cases h
      exact .inr (.inl ⟨_, fun hw => Memory.writeBytes_wf hw 0 bytes, rfl⟩)
    · rw [hostStep_loadProgram_oversized m s hbig] at h
      cases h
      exact .inr (.inl ⟨_, id, rfl⟩)
  | run n =>
    obtain ⟨u, c, hloop, -⟩ := runLoop_answers m n 0 s
    simp only [hostStep, run, hloop] at h
    cases h
    exact .inr (.inr ⟨n, c, rfl, hloop⟩)
  | read what => cases h; exact .inr (.inl ⟨_, id, rfl⟩)
  | poke a v => cases h; exact .inr (.inl ⟨_, fun hw => Memory.write_wf hw (address_lt a) v, rfl⟩)

/-- Every host operation answers (R166). -/
theorem hostStep_answers (m : OpcodeMap) (op : HostOp) (s : State) :
    ∃ t reply, hostStep m op s = .next (t, reply) := by
  cases op with
  | loadProgram bytes =>
    obtain hfit | hbig := le_or_gt bytes.length 256
    · exact ⟨_, _, hostStep_loadProgram m s hfit⟩
    · exact ⟨_, _, hostStep_loadProgram_oversized m s hbig⟩
  | run n =>
    obtain ⟨t, report, hrun, -⟩ := runReportRule m n s
    exact ⟨t, .ran report, by simp only [hostStep, hrun]⟩
  | reset => exact ⟨_, _, rfl⟩
  | read what => exact ⟨_, _, rfl⟩
  | poke a v => exact ⟨_, _, rfl⟩

/-! ### Leaving Halted (R163) -/

/-- Settles O36: of the other operations, the loop of `run` does nothing to a Halted core and the rest change memory
alone; reset answers one fixed state. -/
theorem onlyResetLeavesHalted : Obligations.OnlyResetLeavesHalted := by
  refine ⟨fun m op s t reply hop hr h => ?_, fun _ _ _ => ⟨State.reset, rfl, rfl, rfl⟩⟩
  obtain ⟨hreset, -⟩ | ⟨_, -, rfl⟩ | ⟨n, c, -, hloop⟩ := hostStep_cases h
  · exact absurd hreset hop
  · exact ⟨hr, rfl, rfl, rfl, rfl⟩
  · rw [runLoop_halted m n 0 hr] at hloop
    cases hloop
    exact ⟨hr, rfl, rfl, rfl, rfl⟩

/-! ### The invariant of sessions (R16, R170) -/

/-- The loop of `run` keeps the invariant, since each of its cycles is a step. -/
theorem runLoop_inv {m : OpcodeMap} {n done c : Nat} {s t : State} (hs : s.Inv)
    (h : runLoop m n done s = .next (t, c)) : t.Inv := by
  induction n generalizing done s with
  | zero => cases h; exact hs
  | succ n ih =>
    obtain hr | ⟨hr, u, hu⟩ := halted_or_cycle m s
    · rw [runLoop_halted m _ _ hr] at h
      cases h
      exact hs
    · rw [runLoop_running n done hr hu] at h
      exact ih (stepWith_inv hs ((stepWith_running m hr).trans hu)) h

/-- One operation of the host keeps the invariant. -/
theorem hostStep_inv {m : OpcodeMap} {op : HostOp} {s t : State} {reply : HostReply} (hs : s.Inv)
    (h : hostStep m op s = .next (t, reply)) : t.Inv := by
  obtain ⟨-, rfl⟩ | ⟨_, hwf, rfl⟩ | ⟨_, _, -, hloop⟩ := hostStep_cases h
  · exact resetMeetsInvariant
  · obtain ⟨hw, hflags⟩ := hs
    exact ⟨hwf hw, hflags⟩
  · exact runLoop_inv hs hloop

/-- A session's first operation is followed by the session of the others. -/
theorem hostSession_cons {m : OpcodeMap} {op : HostOp} {ops : List HostOp} {s t u : State} {reply : HostReply}
    {replies : List HostReply} (hstep : hostStep m op s = .next (t, reply))
    (hrest : hostSession m ops t = .next (u, replies)) :
    hostSession m (op :: ops) s = .next (u, reply :: replies) := by
  simp only [hostSession, hstep, hrest]

/-- Settles O44, by induction on the operations: each of them answers one reply and keeps the invariant. -/
theorem sessionKeepsInvariant : Obligations.SessionKeepsInvariant := by
  intro m ops
  induction ops with
  | nil => exact fun s hs => ⟨s, [], rfl, hs, rfl⟩
  | cons op ops ih =>
    intro s hs
    obtain ⟨t, reply, hstep⟩ := hostStep_answers m op s
    obtain ⟨u, replies, hrest, hu, hlen⟩ := ih t (hostStep_inv hs hstep)
    exact ⟨u, reply :: replies, hostSession_cons hstep hrest, hu, by simp [hlen]⟩

end Sys2Proof.Machine
end

section
/-! PROOFS. The statement about the default opcode map (`30_encoding.md` section 4): which bytes it leaves unknown. -/
namespace Sys2Proof.Machine

/-- The bytes that the ten default opcodes, 0 to 5, 7 to 9 and 255, leave over: the gap at 6 and the one below 255. -/
theorem forall_defaultOpcodeMap_ne {op : Byte} :
    (∀ k, defaultOpcodeMap k ≠ op) ↔ op = 0x06 ∨ (0x0A ≤ op.toNat ∧ op.toNat ≤ 0xFE) := by
  constructor
  · intro h
    have hall : ∀ k ∈ Mnemonic.all, defaultOpcodeMap k ≠ op := fun k _ => h k
    simp only [Mnemonic.all, List.forall_mem_cons, defaultOpcodeMap] at hall
    bv_omega
  · rintro h k rfl
    cases k <;> simp [defaultOpcodeMap] at h

/-- Settles O5: a byte is unknown when it is none of the map's opcodes. -/
theorem defaultUnknownBytes : Obligations.DefaultUnknownBytes :=
  fun _ => decodeOpcode_none.trans forall_defaultOpcodeMap_ne

end Sys2Proof.Machine
end
